-- ==== Sys2Proof/Word.lean ====
section
/-! DEFINITION. The two word widths of the block (10_state.md R21, 20_memory.md R60). -/

namespace Sys2Proof

/-- A register, an operand or a command word: 32 bits (10_state.md R21, 30_encoding.md R90). -/
abbrev Word := BitVec 32

/-- A byte of HMEM or WBUF (00_scope.md R10). -/
abbrev Byte := BitVec 8

end Sys2Proof
end

