-- ==== Sys2Proof/Syntax.lean ====
section
/-! DEFINITION. The commands: one constructor per row of spec/opcode_table.json (30_encoding.md R96). -/

namespace Sys2Proof

/-- The codec family, field F of format S (30_encoding.md R93). -/
inductive Family
  /-- F = 0: the family with the 1-byte NAL header. -/
  | oneByte
  /-- F = 1: the family with the 2-byte NAL header. -/
  | twoByte
  deriving DecidableEq, Repr

/-- A command with the operands its word carries; the other operands are in ARG0 to ARG2 (30_encoding.md R94). -/
inductive Instr
  | wInit
  /-- `w` is the field W of format W. -/
  | wPut (w : Nat)
  | wPutUe
  | wPutSe
  | wAlignZero
  | wTell
  | wCopyOut
  | wClear
  | rInit
  /-- `n` is the field W of format W. -/
  | rGetBits (n : Nat)
  | rGetUe
  | rGetSe
  | rSkipBits
  | rBitsCount
  | rBitsLeft
  /-- `f` and `t` are the fields F and T of format S. -/
  | seiBuild (f : Family) (t : Byte)
  deriving DecidableEq, Repr

end Sys2Proof
end

