-- ==== Sys2Proof/WellFormed.lean ====
section
/-! DEFINITION. Which commands have an encoding: a width field holds 0 to 63 (30_encoding.md R92, R106). -/

namespace Sys2Proof

/-- The check of a command's fields: widths 33 to 63 are encodable and fail at run time, wider ones have no word
(30_encoding.md R92, R106). -/
def Instr.wf : Instr → Bool
  | .wPut w => decide (w ≤ 63)
  | .rGetBits n => decide (n ≤ 63)
  | .wInit | .wPutUe | .wPutSe | .wAlignZero | .wTell | .wCopyOut | .wClear | .rInit | .rGetUe | .rGetSe
  | .rSkipBits | .rBitsCount | .rBitsLeft => true
  | .seiBuild _ _ => true

end Sys2Proof
end

