-- ==== Sys2Proof/Decode.lean ====
section
/-! DEFINITION. The command word: the opcode map, the decoder and the encoder (30_encoding.md part A). -/

namespace Sys2Proof

/-- Why a word encodes no command (30_encoding.md R98). -/
inductive IllegalWord
  /-- The opcode, bits 31:24, is not in the map. -/
  | unassignedOpcode
  /-- The opcode is in the map and a reserved bit is set. -/
  | reservedBits
  deriving DecidableEq, Repr

/-- What the decoder answers for a word: a command, or ILLEGAL with its reason. -/
inductive Decoded
  | command (i : Instr)
  | illegal (why : IllegalWord)
  deriving DecidableEq, Repr

/-- The field W of format W, zero-extended (30_encoding.md R92, R95). -/
def fieldW (c : Word) : Nat := (c.extractLsb' 0 6).toNat

/-- The field F of format S (30_encoding.md R93). -/
def fieldF (c : Word) : Family := if c.getLsbD 8 then .twoByte else .oneByte

/-- The field T of format S (30_encoding.md R93). -/
def fieldT (c : Word) : Byte := c.extractLsb' 0 8

/-- One row of the opcode map (30_encoding.md R96). -/
structure OpcodeRow where
  mask : Word
  pattern : Word
  build : Word → Instr

/-- The opcode map, row by row (30_encoding.md R96). -/
def opcodeMap : List OpcodeRow :=
  [ ⟨0xFFFFFFFF, 0x01000000, fun _ => .wInit⟩,
    ⟨0xFFFFFFC0, 0x02000000, fun c => .wPut (fieldW c)⟩,
    ⟨0xFFFFFFFF, 0x03000000, fun _ => .wPutUe⟩,
    ⟨0xFFFFFFFF, 0x04000000, fun _ => .wPutSe⟩,
    ⟨0xFFFFFFFF, 0x05000000, fun _ => .wAlignZero⟩,
    ⟨0xFFFFFFFF, 0x06000000, fun _ => .wTell⟩,
    ⟨0xFFFFFFFF, 0x07000000, fun _ => .wCopyOut⟩,
    ⟨0xFFFFFFFF, 0x08000000, fun _ => .wClear⟩,
    ⟨0xFFFFFFFF, 0x10000000, fun _ => .rInit⟩,
    ⟨0xFFFFFFC0, 0x11000000, fun c => .rGetBits (fieldW c)⟩,
    ⟨0xFFFFFFFF, 0x12000000, fun _ => .rGetUe⟩,
    ⟨0xFFFFFFFF, 0x13000000, fun _ => .rGetSe⟩,
    ⟨0xFFFFFFFF, 0x14000000, fun _ => .rSkipBits⟩,
    ⟨0xFFFFFFFF, 0x15000000, fun _ => .rBitsCount⟩,
    ⟨0xFFFFFFFF, 0x16000000, fun _ => .rBitsLeft⟩,
    ⟨0xFFFFFE00, 0x20000000, fun c => .seiBuild (fieldF c) (fieldT c)⟩ ]

/-- A word selects a row whose pattern it shows under the row's mask (30_encoding.md R96). -/
def OpcodeRow.selects (r : OpcodeRow) (c : Word) : Bool := c &&& r.mask == r.pattern

/-- The reason a word that no row selects is ILLEGAL (30_encoding.md R98). -/
def illegalReason (c : Word) : IllegalWord :=
  if opcodeMap.any (fun r => r.pattern.extractLsb' 24 8 == c.extractLsb' 24 8) then .reservedBits else .unassignedOpcode

/-- Decode of 30_encoding.md R97: total on all words. -/
def decode (c : Word) : Decoded :=
  match opcodeMap.find? (fun r => r.selects c) with
  | some r => .command (r.build c)
  | none => .illegal (illegalReason c)

/-- The field F of a family (30_encoding.md R93). -/
def Family.bit : Family → BitVec 1
  | .oneByte => 0
  | .twoByte => 1

/-- A word of format N (30_encoding.md R91). -/
def formatN (opc : Byte) : Word := opc ++ 0#24

/-- A word of format W (30_encoding.md R92). -/
def formatW (opc : Byte) (w : Nat) : Word := opc ++ 0#18 ++ BitVec.ofNat 6 w

/-- A word of format S (30_encoding.md R93). -/
def formatS (opc : Byte) (f : Family) (t : Byte) : Word := opc ++ 0#15 ++ f.bit ++ t

/-- The word of a well-formed command (30_encoding.md R91 to R93, R96). -/
def encode : Instr → Word
  | .wInit => formatN 0x01
  | .wPut w => formatW 0x02 w
  | .wPutUe => formatN 0x03
  | .wPutSe => formatN 0x04
  | .wAlignZero => formatN 0x05
  | .wTell => formatN 0x06
  | .wCopyOut => formatN 0x07
  | .wClear => formatN 0x08
  | .rInit => formatN 0x10
  | .rGetBits n => formatW 0x11 n
  | .rGetUe => formatN 0x12
  | .rGetSe => formatN 0x13
  | .rSkipBits => formatN 0x14
  | .rBitsCount => formatN 0x15
  | .rBitsLeft => formatN 0x16
  | .seiBuild f t => formatS 0x20 f t

/-- The word the opcode table's bits make: a command is one 32-bit word, bits above `nbits` are 0. -/
def tableWord (nbits w : Nat) : Word := BitVec.ofNat 32 (w % 2 ^ nbits)

/-- The command the decoder reads from a table row's bits; none where it answers ILLEGAL. -/
def decodeTableWord (nbits w : Nat) : Option Instr :=
  match decode (tableWord nbits w) with
  | .command i => some i
  | .illegal _ => none

end Sys2Proof
end

