-- ==== Sys2Proof/Config.lean ====
section
/-! DEFINITION. What an instance of the block fixes (00_scope.md R5, 92_eei_decisions.md D32) and the free values:
what memory holds before anything has written it. -/

namespace Sys2Proof.Config

/-- The parameters of an instance (00_scope.md R5; CMD_LATENCY: 92_eei_decisions.md D32). A model takes each as a
named argument; here they travel in `State.cfg`, which no step writes (log 3). -/
structure Params where
  /-- CHUNK_BYTES: the capacity of one chunk of the write buffer. -/
  chunkBytes : Nat
  /-- N_CHUNKS: how many chunks the writer can hold. -/
  nChunks : Nat
  /-- HMEM_BYTES: the size of HMEM. -/
  hmemBytes : Nat
  /-- SEI_MAX_BYTES: the longest frame SEI_BUILD accepts. -/
  seiMaxBytes : Nat
  /-- NAL_HDR_1B: the NAL header of family 0. -/
  nalHdr1B : Byte
  /-- NAL_HDR_2B, first byte. -/
  nalHdr2BFirst : Byte
  /-- NAL_HDR_2B, second byte. -/
  nalHdr2BSecond : Byte
  /-- REG_BASE: the host address of the register window. -/
  regBase : Nat
  /-- CMD_LATENCY: no rule uses it (70_reset_and_hazards.md R302), and no definition reads it (log 14). -/
  cmdLatency : Nat
  deriving DecidableEq, Repr

/-- The constraints of 00_scope.md R5 (92_eei_decisions.md D39). WBUF_CAP is CHUNK_BYTES * N_CHUNKS. -/
abbrev Params.wf (p : Params) : Prop :=
  1 ≤ p.chunkBytes ∧ 1 ≤ p.nChunks ∧ p.chunkBytes * p.nChunks ≤ 2 ^ 28 ∧
  1 ≤ p.hmemBytes ∧ p.hmemBytes ≤ 2 ^ 32 ∧ 9 ≤ p.seiMaxBytes ∧ p.regBase % 0x40 = 0

/-- The defaults of 00_scope.md R5. DESIGN CHOICE, unsafe: the spec gives CMD_LATENCY no default; 0 (log 14). The NAL
header bytes are PRESUMED by the spec itself, from general knowledge (93_implementation_defined.md G1, G2; log 13). -/
def defaults : Params where
  chunkBytes := 4096
  nChunks := 16
  hmemBytes := 2 ^ 20
  seiMaxBytes := 4096
  nalHdr1B := 0x06
  nalHdr2BFirst := 0x4E
  nalHdr2BSecond := 0x01
  regBase := 0
  cmdLatency := 0

/-- What HMEM holds at an address nothing has written since power-up: any value (93_implementation_defined.md U8).
A free value: it has no body, so no proof can learn what it is (log 4). -/
opaque hmemPowerUp : Nat → Byte

/-- What WBUF holds at an index nothing has written: unspecified (10_state.md R33, 93_implementation_defined.md U6).
A free value (log 5). -/
opaque wbufPowerUp : Nat → Byte

end Sys2Proof.Config
end

