-- ==== Sys2Proof/Machine/Codes.lean ====
section
/-! DEFINITION. The bit-stream and byte code formats, apart from any state: fixed fields, Exp-Golomb codes, the SEI
envelope (30_encoding.md part B, 43_sei_frame_builder.md section 1). Arithmetic is on unbounded integers (00_scope.md R8). -/

namespace Sys2Proof.Machine

/-- ceil8 of 00_scope.md R8: how many bytes hold n bits. -/
def ceil8 (n : Nat) : Nat := (n + 7) / 8

/-- bin_w(v) of 00_scope.md R7: the w low bits of v, most significant first. It is the code u(w) (30_encoding.md R100). -/
def bin : Nat → Nat → List Bool
  | 0, _ => []
  | w + 1, v => v.testBit w :: bin w v

/-- L(v) of 42_exp_golomb.md R200: floor(log2(v + 1)). -/
def ueL (v : Nat) : Nat := Nat.log2 (v + 1)

/-- UeLen(v) of 42_exp_golomb.md R200. -/
def ueLen (v : Nat) : Nat := 2 * ueL v + 1

/-- ue(v) as a bit string: L zeros, then the L + 1 bits of v + 1 (30_encoding.md R101). -/
def ueBits (v : Nat) : List Bool := bin (ueL v) 0 ++ bin (ueL v + 1) (v + 1)

/-- The largest value with a ue code, 2^32 - 2 (00_scope.md R6). -/
def ueMax : Nat := 2 ^ 32 - 2

/-- zz of 30_encoding.md R102, exact. -/
def zz (k : Int) : Nat := if 0 < k then (2 * k - 1).toNat else (-2 * k).toNat

/-- izz of 30_encoding.md R102. -/
def izz (u : Nat) : Int := if u % 2 = 1 then ((u + 1) / 2 : Nat) else -((u / 2 : Nat) : Int)

/-- twos_32 of 00_scope.md R8. -/
def twos32 (k : Int) : Word := BitVec.ofInt 32 k

/-- zext_32 of 00_scope.md R8. -/
def zext32 (v : Nat) : Word := BitVec.ofNat 32 v

/-- The NAL start code (00_scope.md R6). -/
def startCode : List Byte := [0x00, 0x00, 0x00, 0x01]

/-- NalHdr(f) of 30_encoding.md R104, chosen by the family alone (43_sei_frame_builder.md R231). -/
def nalHdr (p : Config.Params) : Family → List Byte
  | .oneByte => [p.nalHdr1B]
  | .twoByte => [p.nalHdr2BFirst, p.nalHdr2BSecond]

/-- H(f) of 43_sei_frame_builder.md R230. -/
def nalHdrLen : Family → Nat
  | .oneByte => 1
  | .twoByte => 2

/-- SizeBytes(S) of 30_encoding.md R105. -/
def sizeBytes (n : Nat) : List Byte := List.replicate (n / 255) 0xFF ++ [BitVec.ofNat 8 (n % 255)]

/-- Frame(f, t, P) of 30_encoding.md R104. -/
def frame (p : Config.Params) (f : Family) (t : Byte) (payload : List Byte) : List Byte :=
  startCode ++ nalHdr p f ++ [t] ++ sizeBytes payload.length ++ payload ++ [0x80]

/-- FrameLen(f, S) of 43_sei_frame_builder.md R230. -/
def frameLen (f : Family) (n : Nat) : Nat := 4 + nalHdrLen f + 1 + (n / 255 + 1) + n + 1

end Sys2Proof.Machine
end

