-- ==== Sys2Proof/Machine/State.lean ====
section
/-! DEFINITION. The state of the block and of the agents around it (10_state.md), as plain data, and the state after
reset (10_state.md R40). -/

namespace Sys2Proof.Machine

/-- Bytes by address, in one canonical form: addresses strictly rising. An address not listed has no value of its own:
nothing has written it, and a read of it gives a free value (logs 4 and 5). -/
abbrev Memory := List Host.Cell

/-- The canonical form. -/
abbrev Memory.wf (m : Memory) : Prop := m.Pairwise fun x y => x.1 < y.1

/-- The writer, unit BW (10_state.md R30 to R33). -/
structure BitWriter where
  /-- SR, the 1-byte shift register (R30; log 6). -/
  sr : Byte
  /-- PB, how many bits are pending in SR (R31). -/
  pb : Nat
  /-- WCNT, how many bytes are committed (R32). -/
  wcnt : Nat
  /-- WBUF, the byte store (R33). -/
  wbuf : Memory
  deriving DecidableEq, Repr

/-- The reader, unit BR (10_state.md R35). -/
structure BitReader where
  /-- RBASE, the HMEM address of the buffer. -/
  base : Word
  /-- RBITS, the bit length of the buffer. -/
  bits : Word
  /-- RCUR, the cursor in bits. -/
  cur : Word
  deriving DecidableEq, Repr

/-- One thing the world outside the block does between two commands (10_state.md R20, R27, R37; 70_reset_and_hazards.md
R290, R293). -/
inductive HostAction
  /-- The host writes `v` with an access of `bytes` bytes at host address `addr` (R27). -/
  | regWrite (addr bytes : Nat) (v : Word)
  /-- The host reads with an access of `bytes` bytes at host address `addr` (R27). -/
  | regRead (addr bytes : Nat)
  /-- The host, or another agent that shares HMEM, writes one byte of HMEM (R37). -/
  | memWrite (a : Nat) (v : Byte)
  /-- The host reads one byte of HMEM (R37). -/
  | memRead (a : Nat)
  /-- The host acts while a command is still in flight (R293; log 11). -/
  | duringCommand
  /-- The platform asserts the block's reset (R290). -/
  | assertReset
  /-- The platform releases the block's reset (R290). -/
  | releaseReset
  deriving DecidableEq, Repr

/-- The machine: the block's registers and units, HMEM, the reset line, the parameters, and the host's part. -/
structure State where
  /-- CMD (10_state.md R26). -/
  cmd : Word
  /-- ARG0 (10_state.md R22). -/
  arg0 : Word
  /-- ARG1 (10_state.md R22). -/
  arg1 : Word
  /-- ARG2 (10_state.md R22). -/
  arg2 : Word
  /-- RESULT (10_state.md R23). -/
  result : Word
  /-- STATUS (10_state.md R24): CODE in bits 7:0. -/
  status : Word
  /-- DIAG_COUNT (10_state.md R25). -/
  diagCount : Word
  /-- The writer. -/
  bw : BitWriter
  /-- The reader. -/
  br : BitReader
  /-- HMEM (10_state.md R37). -/
  hmem : Memory
  /-- Whether the platform holds the block in reset (70_reset_and_hazards.md R290; log 7). -/
  inReset : Bool
  /-- The parameters of the instance (00_scope.md R5); no step writes them (log 3). -/
  cfg : Config.Params
  /-- The model's own: what the host has still to do, next first (log 1). -/
  hostq : List HostAction
  /-- The model's own: what the host's last read returned (log 8). -/
  hostData : Word
  deriving DecidableEq, Repr

/-- Codes a command completes with (60_exceptions.md R260). -/
inductive DoneCode
  /-- OK: the command did what its rule says. -/
  | ok
  /-- SKIP_NOP: R_SKIP_BITS would pass the end; the cursor stays. -/
  | skipNop
  /-- UE_GUARD: 32 leading zero bits. -/
  | ueGuard
  deriving DecidableEq, Repr

/-- Codes a command is ended with by raise (60_exceptions.md R260). -/
inductive ErrCode
  /-- ERR_ILLEGAL: the word encodes no command. -/
  | illegal
  /-- ERR_WIDTH: a width above 32. -/
  | width
  /-- ERR_UE_RANGE: a ue value above 2^32 - 2. -/
  | ueRange
  /-- ERR_NOMEM: a byte would complete with no room in WBUF. -/
  | nomem
  /-- ERR_OVERRUN: a bit at or past RBITS is needed. -/
  | overrun
  /-- ERR_RANGE: a range leaves HMEM. -/
  | range
  /-- ERR_SEI_SIZE: the frame is longer than SEI_MAX_BYTES. -/
  | seiSize
  /-- ERR_OVERLAP: payload and output share a byte. -/
  | overlap
  deriving DecidableEq, Repr

/-- Why the machine stops with a fault. No command faults (20_memory.md R70). -/
inductive Fault
  /-- The host's own access of HMEM names address `a`, which does not exist (10_state.md R37). Raised by the host's
  `memRead` and `memWrite`; safe: the model stops where the spec says nothing (log 10). -/
  | hmemAddress (a : Nat)
  deriving DecidableEq, Repr

/-- Why a step is refused. -/
inductive Refusal
  /-- The instruction has no meaning in the model; raised by no arm of `exec`. Safe. -/
  | notModelled (mnemonic : String)
  /-- The host accessed the register window other than by an aligned 32-bit access (10_state.md R27,
  93_implementation_defined.md U3: refuse). Raised by the host's `regRead` and `regWrite`; safe (log 9). -/
  | hostAccessSize
  /-- The host's register access lies outside the window, so it is none of this block's (10_state.md R27); that it is
  refused is the model's choice. Raised by `regRead` and `regWrite`; safe (log 9). -/
  | hostOutsideWindow
  /-- The host acted while a command was in flight (70_reset_and_hazards.md R293, 93_implementation_defined.md U1 and U2:
  refuse). Raised by `duringCommand`; safe (log 11). -/
  | hostDuringCommand
  deriving DecidableEq, Repr

/-- The writer after reset: the state `init()` gives (10_state.md R40). WBUF is unspecified: nothing listed (log 5). -/
def BitWriter.reset : BitWriter where
  sr := 0
  pb := 0
  wcnt := 0
  wbuf := []

/-- The reader after reset: an empty buffer at address 0 (10_state.md R40). -/
def BitReader.reset : BitReader where
  base := 0
  bits := 0
  cur := 0

/-- The machine right after reset (10_state.md R40): default parameters (log 3), the reset line released (log 7), HMEM
with nothing written (log 4), and the host with nothing to do (log 1). -/
def State.reset : State where
  cmd := 0x00000000
  arg0 := 0x00000000
  arg1 := 0x00000000
  arg2 := 0x00000000
  result := 0x00000000
  status := 0x00000000
  diagCount := 0x00000000
  bw := BitWriter.reset
  br := BitReader.reset
  hmem := []
  inReset := false
  cfg := Config.defaults
  hostq := []
  hostData := 0

end Sys2Proof.Machine
end

