-- ==== Sys2Proof/Machine/Flags.lean ====
section
/-! DEFINITION. The block has no condition codes; its one status indicator is STATUS.CODE (10_state.md R29). The code
numbers of 60_exceptions.md R260 and the STATUS words that hold them (10_state.md R24). -/

namespace Sys2Proof.Machine

/-- The number of a completion code, below 0x10 (60_exceptions.md R260). -/
def DoneCode.code : DoneCode → Byte
  | .ok => 0x00
  | .skipNop => 0x01
  | .ueGuard => 0x02

/-- The number of an error code, 0x10 or above (60_exceptions.md R260). -/
def ErrCode.code : ErrCode → Byte
  | .illegal => 0x10
  | .width => 0x11
  | .ueRange => 0x12
  | .nomem => 0x13
  | .overrun => 0x14
  | .range => 0x15
  | .seiSize => 0x16
  | .overlap => 0x17

/-- STATUS with a code in bits 7:0 and the hardwired 0 above (10_state.md R24). -/
def statusWord (code : Byte) : Word := 0#24 ++ code

/-- STATUS.CODE, bits 7:0 (10_state.md R24). -/
def State.code (s : State) : Byte := s.status.extractLsb' 0 8

end Sys2Proof.Machine
end

