-- ==== Sys2Proof/Machine/Ops.lean ====
section
/-! DEFINITION. The shared operations: bytes of a memory, range checks, the outcome of a command, the writer's and the
reader's primitives (00_scope.md R10, R11; 20_memory.md R61; 40_bit_writer.md R130, R131; 41_bit_reader.md R170, R171;
42_exp_golomb.md R201, R204). -/

namespace Sys2Proof.Machine

/-! Bytes of a memory. -/

/-- The byte listed at an address, if any. -/
def cellRead : Memory → Nat → Option Byte
  | [], _ => none
  | (b, v) :: m, a => if a = b then some v else cellRead m a

/-- The memory with byte `v` at address `a`, in canonical form. -/
def cellWrite : Memory → Nat → Byte → Memory
  | [], a, v => [(a, v)]
  | (b, u) :: m, a, v =>
    if a < b then (a, v) :: (b, u) :: m
    else if a = b then (a, v) :: m
    else (b, u) :: cellWrite m a v

/-- The memory with a run of bytes from address `a` up, in ascending order (20_memory.md R71 item 5). -/
def cellWriteList : Memory → Nat → List Byte → Memory
  | m, _, [] => m
  | m, a, v :: vs => cellWriteList (cellWrite m a v) (a + 1) vs

/-- MemRead(a, 1) of 00_scope.md R10. A byte nothing has written is a free value (93_implementation_defined.md U8; log 4). -/
def State.memRead (s : State) (a : Nat) : Byte := (cellRead s.hmem a).getD (Config.hmemPowerUp a)

/-- The `n` bytes of HMEM from address `a` up. -/
def State.memReadList (s : State) (a n : Nat) : List Byte := (List.range n).map fun i => s.memRead (a + i)

/-- WBUF[i] of 00_scope.md R10. A byte nothing has written is a free value (10_state.md R33; log 5). -/
def BitWriter.byte (bw : BitWriter) (i : Nat) : Byte := (cellRead bw.wbuf i).getD (Config.wbufPowerUp i)

/-- WBUF[0 .. WCNT - 1], the committed bytes in order (10_state.md R33). -/
def BitWriter.committed (bw : BitWriter) : List Byte := (List.range bw.wcnt).map bw.byte

/-! Range checks, on unbounded integers (20_memory.md R61). -/

/-- InRange(a, n). -/
abbrev InRange (p : Config.Params) (a n : Nat) : Prop := a + n ≤ p.hmemBytes

/-- Overlap(a, n, b, m). -/
abbrev Overlap (a n b m : Nat) : Prop := n > 0 ∧ m > 0 ∧ a < b + m ∧ b < a + n

/-! The outcome of a command (00_scope.md R11, 60_exceptions.md R261). -/

/-- raise Status(e): every planned effect is discarded, so `s` is the state at command start; CODE, RESULT and
DIAG_COUNT are written and nothing else. The machine goes on. -/
def raise (e : ErrCode) (s : State) : Host.Outcome State Fault Refusal :=
  .next { s with status := statusWord e.code, result := 0, diagCount := s.diagCount + 1 }

/-- complete(c, r): `s` holds the planned effects, which are committed; CODE and RESULT are written, DIAG_COUNT is not. -/
def complete (c : DoneCode) (r : Word) (s : State) : Host.Outcome State Fault Refusal :=
  .next { s with status := statusWord c.code, result := r }

/-! The writer (40_bit_writer.md section 1). -/

/-- WBUF_CAP = CHUNK_BYTES * N_CHUNKS (00_scope.md R5). -/
def State.wbufCap (s : State) : Nat := s.cfg.chunkBytes * s.cfg.nChunks

/-- TELL = 8*WCNT + PB (10_state.md R34). -/
def BitWriter.tell (bw : BitWriter) : Nat := 8 * bw.wcnt + bw.pb

/-- Fits(n) of 40_bit_writer.md R131. -/
abbrev Fits (s : State) (n : Nat) : Prop := s.bw.wcnt + (s.bw.pb + n) / 8 ≤ s.wbufCap

/-- 2*SR + b in the 1-byte shift register (40_bit_writer.md R130; log 6). -/
def shiftIn (sr : Byte) (b : Bool) : Byte := (sr.concat b).setWidth 8

/-- One round of EmitBits: shift a bit in, and commit the byte when it is the eighth (40_bit_writer.md R130). -/
def emitBit (b : Bool) (bw : BitWriter) : BitWriter :=
  if bw.pb + 1 = 8 then
    { sr := 0, pb := 0, wcnt := bw.wcnt + 1, wbuf := cellWrite bw.wbuf bw.wcnt (shiftIn bw.sr b) }
  else { bw with sr := shiftIn bw.sr b, pb := bw.pb + 1 }

/-- EmitBits(v, w) of 40_bit_writer.md R130: bits w - 1 down to 0 of v. -/
def emitBits (v : Nat) : Nat → BitWriter → BitWriter
  | 0, bw => bw
  | w + 1, bw => emitBits v w (emitBit (v.testBit w) bw)

/-- The empty stream: SR, PB and WCNT are 0; WBUF keeps bytes no command can observe (40_bit_writer.md R133). -/
def BitWriter.emptied (bw : BitWriter) : BitWriter := { bw with sr := 0, pb := 0, wcnt := 0 }

/-- The two cases of 42_exp_golomb.md R201: one write up to 32 bits, else a zero prefix and a 32-bit low write. -/
def emitUe (v : Nat) (bw : BitWriter) : BitWriter :=
  if ueLen v ≤ 32 then emitBits (v + 1) (ueLen v) bw
  else emitBits (v + 1) 32 (emitBits 0 (ueLen v - 32) bw)

/-- W_PUT_UE from its range check on (42_exp_golomb.md R201), which W_PUT_SE runs too (R203). -/
def putUe (u : Nat) (s : State) : Host.Outcome State Fault Refusal :=
  if ueMax < u then raise .ueRange s
  else if ¬ Fits s (ueLen u) then raise .nomem s
  else complete .ok 0 { s with bw := emitUe u s.bw }

/-! The reader (41_bit_reader.md section 1, 42_exp_golomb.md R204). -/

/-- RdBit(p) of 41_bit_reader.md R170. -/
def State.rdBit (s : State) (p : Nat) : Bool :=
  (s.memRead (s.br.base.toNat + p / 8)).toNat / 2 ^ (7 - p % 8) % 2 == 1

/-- ReadField(p, n) of 41_bit_reader.md R171: the n bits from position p, the first most significant. -/
def State.readField (s : State) (p : Nat) : Nat → Nat
  | 0 => 0
  | n + 1 => 2 * s.readField p n + (s.rdBit (p + n)).toNat

/-- The reader's cursor moved to position `p`. -/
def State.moveCursor (s : State) (p : Nat) : State := { s with br := { s.br with cur := zext32 p } }

/-- How the scan for the first 1 bit ends (42_exp_golomb.md R204). -/
inductive ZeroScan
  /-- 32 zeros were counted; `p` is the position after them. -/
  | guard (p : Nat)
  /-- The buffer ended first. -/
  | overrun
  /-- A 1 came after `zeros` zeros; `p` is the position after it. -/
  | one (p zeros : Nat)
  deriving DecidableEq, Repr

/-- The loop of 42_exp_golomb.md R204; the first argument is how many zeros are left before the guard, 32 - L. -/
def State.scanZeros (s : State) : Nat → Nat → Nat → ZeroScan
  | 0, p, _ => .guard p
  | left + 1, p, zeros =>
    if s.br.bits.toNat ≤ p then .overrun
    else if s.rdBit p then .one (p + 1) zeros
    else s.scanZeros left (p + 1) (zeros + 1)

/-- How reading a ue code ends (42_exp_golomb.md R204). -/
inductive UeRead
  /-- The guard: the cursor goes to `p`. -/
  | guard (p : Nat)
  /-- The buffer ends inside the code. -/
  | overrun
  /-- The value `u`; the cursor goes to `p`. -/
  | value (u p : Nat)
  deriving DecidableEq, Repr

/-- The pseudocode of 42_exp_golomb.md R204 up to its end, which R_GET_UE and R_GET_SE share. -/
def State.readUe (s : State) : UeRead :=
  match s.scanZeros 32 s.br.cur.toNat 0 with
  | .guard p => .guard p
  | .overrun => .overrun
  | .one p zeros =>
    if s.br.bits.toNat < p + zeros then .overrun
    else .value (2 ^ zeros - 1 + s.readField p zeros) (p + zeros)

end Sys2Proof.Machine
end

