-- ==== Sys2Proof/Machine/Operands.lean ====
section
/-! DEFINITION. The operands a command reads from ARG0 to ARG2 at command start (30_encoding.md R94, R95). -/

namespace Sys2Proof.Machine

/-- `value` of W_PUT and W_PUT_UE: ARG0, unsigned (30_encoding.md R94, R95). -/
def State.opValue (s : State) : Nat := s.arg0.toNat

/-- `value` of W_PUT_SE: sext_32(ARG0) (30_encoding.md R95). -/
def State.opSigned (s : State) : Int := s.arg0.toInt

/-- `dst` of W_COPY_OUT: ARG0 (30_encoding.md R94). -/
def State.opCopyDst (s : State) : Nat := s.arg0.toNat

/-- `base` of R_INIT: ARG0 (30_encoding.md R94). -/
def State.opBase (s : State) : Word := s.arg0

/-- `bit_size` of R_INIT: ARG1 (30_encoding.md R94). -/
def State.opBitSize (s : State) : Word := s.arg1

/-- `n` of R_SKIP_BITS: ARG0, unsigned (30_encoding.md R94). -/
def State.opSkip (s : State) : Nat := s.arg0.toNat

/-- `src` of SEI_BUILD: ARG0 (30_encoding.md R94). -/
def State.opSeiSrc (s : State) : Nat := s.arg0.toNat

/-- `len` of SEI_BUILD: ARG1 (30_encoding.md R94). -/
def State.opSeiLen (s : State) : Nat := s.arg1.toNat

/-- `dst` of SEI_BUILD: ARG2 (30_encoding.md R94). -/
def State.opSeiDst (s : State) : Nat := s.arg2.toNat

end Sys2Proof.Machine
end

