-- ==== Sys2Proof/Machine/ExpGolomb.lean ====
section
/-! DEFINITION. The Exp-Golomb commands (42_exp_golomb.md). -/

namespace Sys2Proof.Machine

/-- W_PUT_UE (42_exp_golomb.md R201). -/
def execWPutUe (s : State) : Host.Outcome State Fault Refusal :=
  putUe s.opValue s

/-- W_PUT_SE (42_exp_golomb.md R203): the zig-zag is exact. -/
def execWPutSe (s : State) : Host.Outcome State Fault Refusal :=
  putUe (zz s.opSigned) s

/-- R_GET_UE (42_exp_golomb.md R204). -/
def execRGetUe (s : State) : Host.Outcome State Fault Refusal :=
  match s.readUe with
  | .guard p => complete .ueGuard 0 (s.moveCursor p)
  | .overrun => raise .overrun s
  | .value u p => complete .ok (zext32 u) (s.moveCursor p)

/-- R_GET_SE (42_exp_golomb.md R205). -/
def execRGetSe (s : State) : Host.Outcome State Fault Refusal :=
  match s.readUe with
  | .guard p => complete .ueGuard (twos32 (izz 0)) (s.moveCursor p)
  | .overrun => raise .overrun s
  | .value u p => complete .ok (twos32 (izz u)) (s.moveCursor p)

end Sys2Proof.Machine
end

