-- ==== Sys2Proof/Machine/Reader.lean ====
section
/-! DEFINITION. The bit stream reader commands (41_bit_reader.md section 2). -/

namespace Sys2Proof.Machine

/-- R_INIT (41_bit_reader.md R172). -/
def execRInit (s : State) : Host.Outcome State Fault Refusal :=
  if ¬ InRange s.cfg s.opBase.toNat (ceil8 s.opBitSize.toNat) then raise .range s
  else complete .ok 0 { s with br := { base := s.opBase, bits := s.opBitSize, cur := 0 } }

/-- R_GET_BITS (41_bit_reader.md R173): the width is checked before the buffer's end. -/
def execRGetBits (n : Nat) (s : State) : Host.Outcome State Fault Refusal :=
  if 32 < n then raise .width s
  else if s.br.bits.toNat < s.br.cur.toNat + n then raise .overrun s
  else complete .ok (zext32 (s.readField s.br.cur.toNat n)) (s.moveCursor (s.br.cur.toNat + n))

/-- R_SKIP_BITS (41_bit_reader.md R174): the sum is exact; past the end is a soft fail. -/
def execRSkipBits (s : State) : Host.Outcome State Fault Refusal :=
  if s.br.bits.toNat < s.br.cur.toNat + s.opSkip then complete .skipNop 0 s
  else complete .ok 0 (s.moveCursor (s.br.cur.toNat + s.opSkip))

/-- R_BITS_COUNT (41_bit_reader.md R175). -/
def execRBitsCount (s : State) : Host.Outcome State Fault Refusal :=
  complete .ok s.br.cur s

/-- R_BITS_LEFT (41_bit_reader.md R176). -/
def execRBitsLeft (s : State) : Host.Outcome State Fault Refusal :=
  complete .ok (s.br.bits - s.br.cur) s

end Sys2Proof.Machine
end

