-- ==== Sys2Proof/Machine/Sei.lean ====
section
/-! DEFINITION. The SEI frame builder command (43_sei_frame_builder.md R232). -/

namespace Sys2Proof.Machine

/-- SEI_BUILD (43_sei_frame_builder.md R232): size, payload range, output range, overlap, in that order; every payload
byte is read before any byte is written. -/
def execSeiBuild (f : Family) (t : Byte) (s : State) : Host.Outcome State Fault Refusal :=
  if s.cfg.seiMaxBytes < frameLen f s.opSeiLen then raise .seiSize s
  else if ¬ InRange s.cfg s.opSeiSrc s.opSeiLen then raise .range s
  else if ¬ InRange s.cfg s.opSeiDst (frameLen f s.opSeiLen) then raise .range s
  else if Overlap s.opSeiSrc s.opSeiLen s.opSeiDst (frameLen f s.opSeiLen) then raise .overlap s
  else complete .ok (zext32 (frameLen f s.opSeiLen))
    { s with hmem := cellWriteList s.hmem s.opSeiDst (frame s.cfg f t (s.memReadList s.opSeiSrc s.opSeiLen)) }

end Sys2Proof.Machine
end

