-- ==== Sys2Proof/Machine/Writer.lean ====
section
/-! DEFINITION. The bit stream writer commands (40_bit_writer.md section 2). -/

namespace Sys2Proof.Machine

/-- W_INIT (40_bit_writer.md R133). -/
def execWInit (s : State) : Host.Outcome State Fault Refusal :=
  complete .ok 0 { s with bw := s.bw.emptied }

/-- W_PUT (40_bit_writer.md R134): the width is checked before the capacity. -/
def execWPut (w : Nat) (s : State) : Host.Outcome State Fault Refusal :=
  if 32 < w then raise .width s
  else if ¬ Fits s w then raise .nomem s
  else complete .ok 0 { s with bw := emitBits (s.opValue % 2 ^ w) w s.bw }

/-- W_ALIGN_ZERO (40_bit_writer.md R135). -/
def execWAlignZero (s : State) : Host.Outcome State Fault Refusal :=
  if s.bw.pb = 0 then complete .ok 0 s
  else if ¬ Fits s (8 - s.bw.pb) then raise .nomem s
  else complete .ok 0 { s with bw := emitBits 0 (8 - s.bw.pb) s.bw }

/-- W_TELL (40_bit_writer.md R136). -/
def execWTell (s : State) : Host.Outcome State Fault Refusal :=
  complete .ok (zext32 s.bw.tell) s

/-- W_COPY_OUT (40_bit_writer.md R137). -/
def execWCopyOut (s : State) : Host.Outcome State Fault Refusal :=
  if ¬ InRange s.cfg s.opCopyDst s.bw.wcnt then raise .range s
  else complete .ok (zext32 s.bw.wcnt) { s with hmem := cellWriteList s.hmem s.opCopyDst s.bw.committed }

/-- W_CLEAR (40_bit_writer.md R138). -/
def execWClear (s : State) : Host.Outcome State Fault Refusal :=
  complete .ok 0 { s with bw := s.bw.emptied }

end Sys2Proof.Machine
end

