-- ==== Sys2Proof/Machine/Dispatch.lean ====
section
/-! DEFINITION. Which meaning runs which command (30_encoding.md R96). -/

namespace Sys2Proof.Machine

def exec (i : Instr) (s : State) : Host.Outcome State Fault Refusal :=
  match i with
  | .wInit => Sys2Proof.Machine.execWInit s
  | .wPut w => Sys2Proof.Machine.execWPut w s
  | .wPutUe => Sys2Proof.Machine.execWPutUe s
  | .wPutSe => Sys2Proof.Machine.execWPutSe s
  | .wAlignZero => Sys2Proof.Machine.execWAlignZero s
  | .wTell => Sys2Proof.Machine.execWTell s
  | .wCopyOut => Sys2Proof.Machine.execWCopyOut s
  | .wClear => Sys2Proof.Machine.execWClear s
  | .rInit => Sys2Proof.Machine.execRInit s
  | .rGetBits n => Sys2Proof.Machine.execRGetBits n s
  | .rGetUe => Sys2Proof.Machine.execRGetUe s
  | .rGetSe => Sys2Proof.Machine.execRGetSe s
  | .rSkipBits => Sys2Proof.Machine.execRSkipBits s
  | .rBitsCount => Sys2Proof.Machine.execRBitsCount s
  | .rBitsLeft => Sys2Proof.Machine.execRBitsLeft s
  | .seiBuild f t => Sys2Proof.Machine.execSeiBuild f t s

end Sys2Proof.Machine
end

