-- ==== Sys2Proof/Machine/Command.lean ====
section
/-! DEFINITION. Running the word the host wrote to CMD (30_encoding.md R99). -/

namespace Sys2Proof.Machine

/-- The execution skeleton of 30_encoding.md R99 after CMD has taken the word: an ILLEGAL word raises ERR_ILLEGAL. -/
def runCommand (c : Word) (s : State) : Host.Outcome State Fault Refusal :=
  match decode c with
  | .command i => exec i s
  | .illegal _ => raise .illegal s

end Sys2Proof.Machine
end

