-- ==== Sys2Proof/Machine/HostBus.lean ====
section
/-! DEFINITION. What the host and the platform do between commands: the register window (10_state.md R27), bytes of HMEM
(10_state.md R37) and the reset line (70_reset_and_hazards.md R290). -/

namespace Sys2Proof.Machine

/-- A register of the window (10_state.md R27). -/
inductive Reg
  | cmd | arg0 | arg1 | arg2 | result | status | diagCount
  /-- Offsets 0x1C to 0x3C. -/
  | reserved
  deriving DecidableEq, Repr

/-- The register at a word-aligned offset of the window (10_state.md R27). -/
def regAt (offset : Nat) : Reg :=
  if offset = 0x00 then .cmd
  else if offset = 0x04 then .arg0
  else if offset = 0x08 then .arg1
  else if offset = 0x0C then .arg2
  else if offset = 0x10 then .result
  else if offset = 0x14 then .status
  else if offset = 0x18 then .diagCount
  else .reserved

/-- The register an access reaches: the window is 0x40 bytes at REG_BASE, and only naturally aligned 32-bit accesses are
defined (10_state.md R27; log 9). -/
def regAccess (p : Config.Params) (addr bytes : Nat) : Except Refusal Reg :=
  if addr < p.regBase ∨ p.regBase + 0x40 ≤ addr then .error .hostOutsideWindow
  else if bytes ≠ 4 ∨ (addr - p.regBase) % 4 ≠ 0 then .error .hostAccessSize
  else .ok (regAt (addr - p.regBase))

/-- What a host read of a register returns (10_state.md R27); STATUS 31:8 and the reserved offsets read 0 (R24, R27). -/
def State.readReg (s : State) : Reg → Word
  | .cmd => s.cmd
  | .arg0 => s.arg0
  | .arg1 => s.arg1
  | .arg2 => s.arg2
  | .result => s.result
  | .status => statusWord s.code
  | .diagCount => s.diagCount
  | .reserved => 0

/-- What a host write of a register stores; read-only and reserved registers ignore it (10_state.md R27). -/
def State.writeReg (s : State) (r : Reg) (v : Word) : State :=
  match r with
  | .cmd => { s with cmd := v }
  | .arg0 => { s with arg0 := v }
  | .arg1 => { s with arg1 := v }
  | .arg2 => { s with arg2 := v }
  | .result | .status | .diagCount | .reserved => s

/-- Reset: every state element takes the value of 10_state.md R40; HMEM and the parameters stay (70_reset_and_hazards.md
R290), and so does what belongs to the host. -/
def State.applyReset (s : State) : State :=
  { s with cmd := 0, arg0 := 0, arg1 := 0, arg2 := 0, result := 0, status := 0, diagCount := 0,
           bw := BitWriter.reset, br := BitReader.reset }

/-- What one host action leads to: an outcome, or a command to run in a state. -/
inductive HostEffect
  | outcome (o : Host.Outcome State Fault Refusal)
  | command (c : Word) (s : State)

/-- A host write of the register window: to CMD it stores the word and starts the command (10_state.md R26); during reset
it is lost (70_reset_and_hazards.md R290). -/
def hostRegWrite (addr bytes : Nat) (v : Word) (s : State) : HostEffect :=
  match regAccess s.cfg addr bytes with
  | .error r => .outcome (.refused r)
  | .ok r =>
    if s.inReset then .outcome (.next s)
    else if r = .cmd then .command v (s.writeReg .cmd v)
    else .outcome (.next (s.writeReg r v))

/-- A host read of the register window, with no side effect on any register (10_state.md R27). -/
def hostRegRead (addr bytes : Nat) (s : State) : Host.Outcome State Fault Refusal :=
  match regAccess s.cfg addr bytes with
  | .error r => .refused r
  | .ok r => .next { s with hostData := s.readReg r }

/-- A host write of one byte of HMEM (10_state.md R37; log 10). -/
def hostMemWrite (a : Nat) (v : Byte) (s : State) : Host.Outcome State Fault Refusal :=
  if ¬ InRange s.cfg a 1 then .fault (.hmemAddress a)
  else .next { s with hmem := cellWrite s.hmem a v }

/-- A host read of one byte of HMEM (10_state.md R37; logs 8 and 10). -/
def hostMemRead (a : Nat) (s : State) : Host.Outcome State Fault Refusal :=
  if ¬ InRange s.cfg a 1 then .fault (.hmemAddress a)
  else .next { s with hostData := zext32 (s.memRead a).toNat }

/-- One action of the host or the platform (10_state.md R20, 70_reset_and_hazards.md R290, R293). -/
def hostAct (a : HostAction) (s : State) : HostEffect :=
  match a with
  | .regWrite addr bytes v => hostRegWrite addr bytes v s
  | .regRead addr bytes => .outcome (hostRegRead addr bytes s)
  | .memWrite a v => .outcome (hostMemWrite a v s)
  | .memRead a => .outcome (hostMemRead a s)
  | .duringCommand => .outcome (.refused .hostDuringCommand)
  | .assertReset => .outcome (.next { s.applyReset with inReset := true })
  | .releaseReset => .outcome (.next { s with inReset := false })

/-- The host write that issues a command word (30_encoding.md R90). -/
def issue (p : Config.Params) (c : Word) : HostAction := .regWrite p.regBase 4 c

/-- The state in which the host's next action issues the word `c` to a block out of reset. -/
def State.withCommand (s : State) (c : Word) : State :=
  { s with inReset := false, hostq := issue s.cfg c :: s.hostq }

end Sys2Proof.Machine
end

