-- ==== Sys2Proof/Machine/Step.lean ====
section
/-! DEFINITION. One step: the host's next action, with the whole command it starts when it writes CMD (10_state.md R20,
R28). -/

namespace Sys2Proof.Machine

/-- The host's next action; with nothing left to do, nothing happens (log 2). -/
def step (s : State) : Host.Outcome State Fault Refusal :=
  match s.hostq with
  | [] => .next s
  | a :: rest =>
    match hostAct a { s with hostq := rest } with
    | .outcome o => o
    | .command c s' => runCommand c s'

/-- The state whose next step runs a table row's bits as a command: the host's write of the word to CMD comes first, and
the block is out of reset (log 1). -/
def State.withFetchWord (s : State) (nbits w : Nat) : State := s.withCommand (tableWord nbits w)

end Sys2Proof.Machine
end

