-- ==== Sys2Proof/Machine/Assembler.lean ====
section
/-! DEFINITION. The assembler syntax and the pseudo-commands (30_encoding.md R106, R107): what a line stands for as host
register writes. -/

namespace Sys2Proof.Machine

/-- One line of assembler: a command of 30_encoding.md R106 or a pseudo-command of R107, operands in the order written. -/
inductive AsmLine
  | wInit | wPut (v w : Nat) | wPutUe (v : Nat) | wPutSe (k : Int) | wAlignZero | wTell | wCopyOut (d : Nat) | wClear
  | rInit (b nbits : Nat) | rGetBits (n : Nat) | rGetUe | rGetSe | rSkipBits (n : Nat) | rBitsCount | rBitsLeft
  | seiBuild (f t src len dst : Nat)
  | wFlag (b : Nat) | wPut8 (v : Nat) | wPut16 (v : Nat) | wPut32 (v : Nat) | wZeros (n : Nat) | wTrailing
  | rFlag | rGet8 | rGet16 | rGet32 | rSkipBytes (k : Nat)
  deriving DecidableEq, Repr

/-- A command with the ARG registers its line writes first, ARG0 first (30_encoding.md R106). -/
structure AsmCommand where
  args : List Word
  instr : Instr
  deriving DecidableEq, Repr

/-- An unsigned operand: 0 to 2^32 - 1, else the assembler refuses the line (30_encoding.md R106). -/
def asmWord (v : Nat) : Option Word := if v < 2 ^ 32 then some (zext32 v) else none

/-- A signed operand of W_PUT_SE: -2^31 to 2^31 - 1 (30_encoding.md R106). -/
def asmSigned (k : Int) : Option Word := if -2 ^ 31 ≤ k ∧ k < 2 ^ 31 then some (twos32 k) else none

/-- A width of 0 to 63 (30_encoding.md R106). -/
def asmWidth (w : Nat) : Option Nat := if w ≤ 63 then some w else none

/-- A family, 0 or 1 (30_encoding.md R106). -/
def asmFamily (f : Nat) : Option Family := if f = 0 then some .oneByte else if f = 1 then some .twoByte else none

/-- A payload type, 0 to 255 (30_encoding.md R106). -/
def asmType (t : Nat) : Option Byte := if t ≤ 255 then some (BitVec.ofNat 8 t) else none

/-- W_PUT v, w. -/
def asmPut (v w : Nat) : Option (List AsmCommand) := do
  let a ← asmWord v
  let w ← asmWidth w
  return [⟨[a], .wPut w⟩]

/-- R_GET_BITS n. -/
def asmGet (n : Nat) : Option (List AsmCommand) := do
  let n ← asmWidth n
  return [⟨[], .rGetBits n⟩]

/-- R_SKIP_BITS n. -/
def asmSkip (n : Nat) : Option (List AsmCommand) := do
  let a ← asmWord n
  return [⟨[a], .rSkipBits⟩]

/-- SEI_BUILD f, t, src, len, dst. -/
def asmSei (f t src len dst : Nat) : Option (List AsmCommand) := do
  let f ← asmFamily f
  let t ← asmType t
  let a ← asmWord src
  let b ← asmWord len
  let c ← asmWord dst
  return [⟨[a, b, c], .seiBuild f t⟩]

/-- The commands a line stands for, none where the assembler refuses an operand (30_encoding.md R106, R107). -/
def AsmLine.commands : AsmLine → Option (List AsmCommand)
  | .wInit => some [⟨[], .wInit⟩]
  | .wPut v w => asmPut v w
  | .wPutUe v => (asmWord v).map fun a => [⟨[a], .wPutUe⟩]
  | .wPutSe k => (asmSigned k).map fun a => [⟨[a], .wPutSe⟩]
  | .wAlignZero => some [⟨[], .wAlignZero⟩]
  | .wTell => some [⟨[], .wTell⟩]
  | .wCopyOut d => (asmWord d).map fun a => [⟨[a], .wCopyOut⟩]
  | .wClear => some [⟨[], .wClear⟩]
  | .rInit b nbits => do
    let a ← asmWord b
    let n ← asmWord nbits
    return [⟨[a, n], .rInit⟩]
  | .rGetBits n => asmGet n
  | .rGetUe => some [⟨[], .rGetUe⟩]
  | .rGetSe => some [⟨[], .rGetSe⟩]
  | .rSkipBits n => asmSkip n
  | .rBitsCount => some [⟨[], .rBitsCount⟩]
  | .rBitsLeft => some [⟨[], .rBitsLeft⟩]
  | .seiBuild f t src len dst => asmSei f t src len dst
  | .wFlag b => asmPut b 1
  | .wPut8 v => asmPut v 8
  | .wPut16 v => asmPut v 16
  | .wPut32 v => asmPut v 32
  | .wZeros n => if n ≤ 32 then asmPut 0 n else none
  | .wTrailing => (asmPut 1 1).map fun l => l ++ [⟨[], .wAlignZero⟩]
  | .rFlag => asmGet 1
  | .rGet8 => asmGet 8
  | .rGet16 => asmGet 16
  | .rGet32 => asmGet 32
  | .rSkipBytes k => asmSkip (8 * k)

/-- The host writes of a list of words to the ARG registers from window offset `offset` up (30_encoding.md R106). -/
def argWrites (p : Config.Params) : Nat → List Word → List HostAction
  | _, [] => []
  | offset, a :: as => .regWrite (p.regBase + offset) 4 a :: argWrites p (offset + 4) as

/-- First the ARG registers, in the order ARG0, ARG1, ARG2, then CMD (30_encoding.md R106). -/
def AsmCommand.actions (p : Config.Params) (c : AsmCommand) : List HostAction :=
  argWrites p 0x04 c.args ++ [issue p (encode c.instr)]

/-- The host register writes a line stands for (30_encoding.md R106, R107). -/
def AsmLine.assemble (p : Config.Params) (l : AsmLine) : Option (List HostAction) :=
  l.commands.map fun cs => cs.flatMap fun c => c.actions p

end Sys2Proof.Machine
end

