-- ==== Sys2Proof/Safety.lean ====
section
/-! DEFINITION. The terms the statements use: the bit string of the stream, the invariants of 10_state.md R34 and R36
and of the model's own data, and the list of codes. -/

namespace Sys2Proof

/-- Whether a command is one of the writer's (30_encoding.md R96, opcodes 0x01 to 0x0F). -/
def Instr.isWriter : Instr → Bool
  | .wInit | .wPut _ | .wPutUe | .wPutSe | .wAlignZero | .wTell | .wCopyOut | .wClear => true
  | .rInit | .rGetBits _ | .rGetUe | .rGetSe | .rSkipBits | .rBitsCount | .rBitsLeft | .seiBuild _ _ => false

/-- Whether a command is one of the reader's (30_encoding.md R96, opcodes 0x10 to 0x1F). -/
def Instr.isReader : Instr → Bool
  | .rInit | .rGetBits _ | .rGetUe | .rGetSe | .rSkipBits | .rBitsCount | .rBitsLeft => true
  | .wInit | .wPut _ | .wPutUe | .wPutSe | .wAlignZero | .wTell | .wCopyOut | .wClear | .seiBuild _ _ => false

/-- Whether a command is one of the two that may write HMEM (20_memory.md R67). -/
def Instr.mayWriteHmem : Instr → Bool
  | .wCopyOut | .seiBuild _ _ => true
  | .wInit | .wPut _ | .wPutUe | .wPutSe | .wAlignZero | .wTell | .wClear | .rInit | .rGetBits _ | .rGetUe | .rGetSe
  | .rSkipBits | .rBitsCount | .rBitsLeft => false

/-- How many of ARG0, ARG1, ARG2 a command reads, from ARG0 on (30_encoding.md R94). -/
def Instr.operandCount : Instr → Nat
  | .wPut _ | .wPutUe | .wPutSe | .wCopyOut | .rSkipBits => 1
  | .rInit => 2
  | .seiBuild _ _ => 3
  | .wInit | .wAlignZero | .wTell | .wClear | .rGetBits _ | .rGetUe | .rGetSe | .rBitsCount | .rBitsLeft => 0

end Sys2Proof

namespace Sys2Proof.Machine

/-- The stream written so far: the bits of the committed bytes, then the pending bits (10_state.md R34). -/
def BitWriter.stream (bw : BitWriter) : List Bool :=
  (bw.committed.flatMap fun b => bin 8 b.toNat) ++ bin bw.pb bw.sr.toNat

/-- The bits of the read buffer from position `p`, `n` of them (20_memory.md R63). -/
def State.readerBits (s : State) (p n : Nat) : List Bool := (List.range n).map fun i => s.rdBit (p + i)

/-- The writer's invariants (10_state.md R34), and that WBUF holds what was committed, in canonical form. -/
structure BitWriter.Ok (cap : Nat) (bw : BitWriter) : Prop where
  pb_le : bw.pb ≤ 7
  sr_lt : bw.sr.toNat < 2 ^ bw.pb
  wcnt_le : bw.wcnt ≤ cap
  wbuf_wf : bw.wbuf.wf
  wbuf_inside : ∀ c ∈ bw.wbuf, c.1 < cap
  wbuf_held : ∀ i < bw.wcnt, (cellRead bw.wbuf i).isSome = true

/-- The reader's invariants (10_state.md R36). -/
structure BitReader.Ok (p : Config.Params) (br : BitReader) : Prop where
  cur_le : br.cur.toNat ≤ br.bits.toNat
  inside : InRange p br.base.toNat (ceil8 br.bits.toNat)

/-- HMEM in canonical form, with no byte at an address that does not exist (10_state.md R37). -/
structure Memory.Ok (p : Config.Params) (m : Memory) : Prop where
  wf : m.wf
  inside : ∀ c ∈ m, c.1 < p.hmemBytes

/-- STATUS is one of the eleven codes with 0 above it (10_state.md R24, 60_exceptions.md R260). -/
def StatusOk (status : Word) : Prop :=
  (∃ c : DoneCode, status = statusWord c.code) ∨ ∃ e : ErrCode, status = statusWord e.code

/-- The invariant of the machine: what 10_state.md R34 and R36 and 60_exceptions.md R267 promise after every command,
with the constraints on the parameters (00_scope.md R5). -/
structure BlockInv (s : State) : Prop where
  params : s.cfg.wf
  writer : s.bw.Ok s.wbufCap
  reader : s.br.Ok s.cfg
  memory : s.hmem.Ok s.cfg
  status : StatusOk s.status

/-- The codes each command can report, by their numbers (60_exceptions.md R260, R262). -/
def reportedCodes : Instr → List Byte
  | .wInit | .wClear | .wTell => [0x00]
  | .wPut _ => [0x00, 0x11, 0x13]
  | .wPutUe | .wPutSe => [0x00, 0x12, 0x13]
  | .wAlignZero => [0x00, 0x13]
  | .wCopyOut => [0x00, 0x15]
  | .rInit => [0x00, 0x15]
  | .rGetBits _ => [0x00, 0x11, 0x14]
  | .rGetUe | .rGetSe => [0x00, 0x02, 0x14]
  | .rSkipBits => [0x00, 0x01]
  | .rBitsCount | .rBitsLeft => [0x00]
  | .seiBuild _ _ => [0x00, 0x15, 0x16, 0x17]

/-- The state an error leaves: STATUS holds the code, RESULT is 0, DIAG_COUNT is one more modulo 2^32, and nothing else
changes (60_exceptions.md R261). -/
def State.afterError (s : State) (status : Word) : State :=
  { s with status := status, result := 0, diagCount := s.diagCount + 1 }

/-- The zig-zag value of k as an exact integer (30_encoding.md R102). -/
def zigzag (k : Int) : Int := if 0 < k then 2 * k - 1 else -2 * k

/-- How many bits a command that completes appends to the stream (40_bit_writer.md R139). -/
def appendedBits (i : Instr) (s : State) : Nat :=
  match i with
  | .wPut w => w
  | .wPutUe => ueLen s.opValue
  | .wPutSe => ueLen (zz s.opSigned)
  | .wAlignZero => if s.bw.pb = 0 then 0 else 8 - s.bw.pb
  | .wInit | .wTell | .wCopyOut | .wClear | .rInit | .rGetBits _ | .rGetUe | .rGetSe | .rSkipBits | .rBitsCount
  | .rBitsLeft | .seiBuild _ _ => 0

/-- A field of a stream as a writer command puts it (41_bit_reader.md R178). -/
inductive Field
  /-- `W_PUT v, w`. -/
  | fixed (v : Word) (w : Nat)
  /-- `W_PUT_UE v`. -/
  | ue (v : Word)
  /-- `W_PUT_SE k`. -/
  | se (k : Word)
  deriving DecidableEq, Repr

/-- A field that has a code: a width up to 32 (30_encoding.md R100), a ue value up to 2^32 - 2 (R101), an se value other
than -2^31 (R102). -/
def Field.legal : Field → Bool
  | .fixed _ w => decide (w ≤ 32)
  | .ue v => decide (v ≠ 0xFFFFFFFF)
  | .se k => decide (k ≠ 0x80000000)

/-- How many bits a field takes. -/
def Field.len : Field → Nat
  | .fixed _ w => w
  | .ue v => ueLen v.toNat
  | .se k => ueLen (zigzag k.toInt).toNat

/-- The word that goes into ARG0, and the writer command. -/
def Field.put : Field → Word × Instr
  | .fixed v w => (v, .wPut w)
  | .ue v => (v, .wPutUe)
  | .se k => (k, .wPutSe)

/-- The reader command that reads the field back. -/
def Field.get : Field → Instr
  | .fixed _ w => .rGetBits w
  | .ue _ => .rGetUe
  | .se _ => .rGetSe

/-- What reading the field back returns (41_bit_reader.md R178, 42_exp_golomb.md R206). -/
def Field.value : Field → Word
  | .fixed v w => BitVec.ofNat 32 (v.toNat % 2 ^ w)
  | .ue v => v
  | .se k => k

/-- The fields put one after another, each with ARG0 written first. -/
def putFields : List Field → State → Host.Outcome State Fault Refusal
  | [], s => .next s
  | f :: fs, s =>
    match exec f.put.2 { s with arg0 := f.put.1 } with
    | .next t => putFields fs t
    | .fault r => .fault r
    | .refused r => .refused r

/-- What the fields read back as, one after another, each with STATUS OK; none if a read ends otherwise. -/
def getFields : List Field → State → Option (List Word)
  | [], _ => some []
  | f :: fs, s =>
    match exec f.get s with
    | .next t => if t.status = 0 then (getFields fs t).map fun l => t.result :: l else none
    | .fault _ => none
    | .refused _ => none

/-- ff-continuation parsing: the sum of the bytes up to and including the first that is not 0xFF, and what follows it
(43_sei_frame_builder.md R233). -/
def parseSize : List Byte → Option (Nat × List Byte)
  | [] => none
  | b :: l => if b = 0xFF then (parseSize l).map fun r => (255 + r.1, r.2) else some (b.toNat, l)

/-- The next state of an outcome, if it is one. -/
def nextOf (o : Host.Outcome State Fault Refusal) : Option State :=
  match o with
  | .next s => some s
  | .fault _ => none
  | .refused _ => none

end Sys2Proof.Machine
end

