-- ==== Sys2Proof/Certificates/Slice0/Obligations.lean ====
section
/-! DEFINITION. The statements for the provers. A docstring names the rule a statement formalises; where the spec marks a
rule as its own inference ("derived"), or the model made a choice, it says so. -/

open Sys2Proof Sys2Proof.Machine

/-! Encoding. -/

/-- Every command a word can hold survives encoding and decoding, with every width 0 to 63, both families and every payload
type (30_encoding.md formats N, W, S and the opcode map). -/
def Obligations.DecodeOfEncodeIsTheCommand : Prop :=
  ∀ i : Instr, i.wf = true → decode (encode i) = .command i

/-- Each word that encodes a command encodes it alone: encoding what was decoded gives the word back, every bit of it. -/
def Obligations.EncodeOfDecodeIsTheWord : Prop :=
  ∀ (c : Word) (i : Instr), decode c = .command i → i.wf = true ∧ encode i = c

/-- 30_encoding.md R96: the opcode map, row by row, on every word, and no word that two rows select. -/
def Obligations.DecodeFollowsTheOpcodeMap : Prop :=
  (∀ c : Word,
    (c &&& 0xFFFFFFFF = 0x01000000 → decode c = .command .wInit) ∧
    (c &&& 0xFFFFFFC0 = 0x02000000 → decode c = .command (.wPut (c &&& 0x3F).toNat)) ∧
    (c &&& 0xFFFFFFFF = 0x03000000 → decode c = .command .wPutUe) ∧
    (c &&& 0xFFFFFFFF = 0x04000000 → decode c = .command .wPutSe) ∧
    (c &&& 0xFFFFFFFF = 0x05000000 → decode c = .command .wAlignZero) ∧
    (c &&& 0xFFFFFFFF = 0x06000000 → decode c = .command .wTell) ∧
    (c &&& 0xFFFFFFFF = 0x07000000 → decode c = .command .wCopyOut) ∧
    (c &&& 0xFFFFFFFF = 0x08000000 → decode c = .command .wClear) ∧
    (c &&& 0xFFFFFFFF = 0x10000000 → decode c = .command .rInit) ∧
    (c &&& 0xFFFFFFC0 = 0x11000000 → decode c = .command (.rGetBits (c &&& 0x3F).toNat)) ∧
    (c &&& 0xFFFFFFFF = 0x12000000 → decode c = .command .rGetUe) ∧
    (c &&& 0xFFFFFFFF = 0x13000000 → decode c = .command .rGetSe) ∧
    (c &&& 0xFFFFFFFF = 0x14000000 → decode c = .command .rSkipBits) ∧
    (c &&& 0xFFFFFFFF = 0x15000000 → decode c = .command .rBitsCount) ∧
    (c &&& 0xFFFFFFFF = 0x16000000 → decode c = .command .rBitsLeft) ∧
    (c &&& 0xFFFFFE00 = 0x20000000 → c.getLsbD 8 = false →
      decode c = .command (.seiBuild .oneByte (BitVec.ofNat 8 (c.toNat % 256)))) ∧
    (c &&& 0xFFFFFE00 = 0x20000000 → c.getLsbD 8 = true →
      decode c = .command (.seiBuild .twoByte (BitVec.ofNat 8 (c.toNat % 256))))) ∧
  opcodeMap.Pairwise (fun q r => ∀ c : Word, ¬ (q.selects c = true ∧ r.selects c = true))

/-- 30_encoding.md R98: ILLEGAL are exactly the words with opcode 0x00, 0x09 to 0x0F, 0x17 to 0x1F or 0x21 to 0xFF and the
words of a listed opcode with a reserved bit set, 0 among them; such a word raises ERR_ILLEGAL and changes STATUS, RESULT
and DIAG_COUNT alone. -/
def Obligations.IllegalWordsRaiseErrIllegal : Prop :=
  (∀ c : Word, (∃ why, decode c = .illegal why) ↔
    (c.toNat / 2 ^ 24 = 0x00 ∨ (0x09 ≤ c.toNat / 2 ^ 24 ∧ c.toNat / 2 ^ 24 ≤ 0x0F) ∨
     (0x17 ≤ c.toNat / 2 ^ 24 ∧ c.toNat / 2 ^ 24 ≤ 0x1F) ∨ 0x21 ≤ c.toNat / 2 ^ 24) ∨
    ((c.toNat / 2 ^ 24 = 0x02 ∨ c.toNat / 2 ^ 24 = 0x11) ∧ c.extractLsb' 6 18 ≠ 0) ∨
    (c.toNat / 2 ^ 24 = 0x20 ∧ c.extractLsb' 9 15 ≠ 0) ∨
    (c.toNat / 2 ^ 24 ≠ 0x02 ∧ c.toNat / 2 ^ 24 ≠ 0x11 ∧ c.toNat / 2 ^ 24 ≠ 0x20 ∧ c.extractLsb' 0 24 ≠ 0)) ∧
  (∃ why, decode 0x00000000 = .illegal why) ∧
  (∀ (c : Word) (why : IllegalWord) (s : State), decode c = .illegal why →
    runCommand c s = .next { s with status := 0x10, result := 0, diagCount := s.diagCount + 1 })

/-- The words of 95_test_vectors.md, Part 2, "Decode and illegal words", and one word of each family. -/
def Obligations.SpecWordsDecodeAsListed : Prop :=
  decode 0x02000021 = .command (.wPut 33) ∧ decode 0x0200003F = .command (.wPut 63) ∧
  decode 0x11000020 = .command (.rGetBits 32) ∧ decode 0x20000104 = .command (.seiBuild .twoByte 4) ∧
  decode 0x200001FF = .command (.seiBuild .twoByte 255) ∧ decode 0x20000004 = .command (.seiBuild .oneByte 4) ∧
  decode 0x03000000 = .command .wPutUe ∧ decode 0x13000000 = .command .rGetSe ∧
  decode 0x01000001 = .illegal .reservedBits ∧ decode 0x20000204 = .illegal .reservedBits ∧
  decode 0x09000000 = .illegal .unassignedOpcode ∧ decode 0x00000000 = .illegal .unassignedOpcode

/-- Each pseudo-command stands for the commands on its right (30_encoding.md part C, pseudo-commands). R107 gives W_ZEROS the
range 0 to 32; that the assembler refuses it above 32 is the model's inference (log 17). -/
def Obligations.PseudoCommandsStandForTheirCommands : Prop :=
  (∀ b, (AsmLine.wFlag b).commands = (AsmLine.wPut b 1).commands) ∧
  (∀ v, (AsmLine.wPut8 v).commands = (AsmLine.wPut v 8).commands) ∧
  (∀ v, (AsmLine.wPut16 v).commands = (AsmLine.wPut v 16).commands) ∧
  (∀ v, (AsmLine.wPut32 v).commands = (AsmLine.wPut v 32).commands) ∧
  (∀ n, n ≤ 32 → (AsmLine.wZeros n).commands = (AsmLine.wPut 0 n).commands) ∧
  (∀ n, 32 < n → (AsmLine.wZeros n).commands = none) ∧
  AsmLine.wTrailing.commands = some [⟨[1], .wPut 1⟩, ⟨[], .wAlignZero⟩] ∧
  AsmLine.rFlag.commands = (AsmLine.rGetBits 1).commands ∧ AsmLine.rGet8.commands = (AsmLine.rGetBits 8).commands ∧
  AsmLine.rGet16.commands = (AsmLine.rGetBits 16).commands ∧
  AsmLine.rGet32.commands = (AsmLine.rGetBits 32).commands ∧
  (∀ k, (AsmLine.rSkipBytes k).commands = (AsmLine.rSkipBits (8 * k)).commands)

/-! The step and the host. -/

/-- A host write of a legal word to CMD, out of reset, is one whole run of its command, on the state in which CMD holds the
word and the host's action is done (30_encoding.md part A, execution skeleton; log 1); a table row's bits run so too. -/
def Obligations.StepRunsTheDecodedCommand : Prop :=
  (∀ (s : State) (c : Word) (rest : List HostAction) (i : Instr),
    s.inReset = false → s.hostq = .regWrite s.cfg.regBase 4 c :: rest → decode c = .command i →
    step s = exec i { s with hostq := rest, cmd := c }) ∧
  (∀ (s : State) (nbits w : Nat) (i : Instr), decodeTableWord nbits w = some i →
    step (s.withFetchWord nbits w) = exec i { s with inReset := false, cmd := BitVec.ofNat 32 (w % 2 ^ nbits) })

/-- A host write of an ILLEGAL word to CMD, out of reset, stores the word and takes ERR_ILLEGAL (30_encoding.md part A,
execution skeleton and illegal space). The list of actions is the model's choice (log 1). -/
def Obligations.StepTakesErrIllegalOnAnIllegalWord : Prop :=
  ∀ (s : State) (c : Word) (rest : List HostAction) (why : IllegalWord),
    s.inReset = false → s.hostq = .regWrite s.cfg.regBase 4 c :: rest → decode c = .illegal why →
    step s = .next { s with hostq := rest, cmd := c, status := 0x10, result := 0, diagCount := s.diagCount + 1 }

/-- The register map (10_state.md section 2). A write of CMD stores the word and runs it; ARG0 to ARG2 store; every other
offset ignores the write. A read returns the register, 0 at a reserved offset, and changes no register. Any other width or
alignment is refused. The registers are 0 after reset. The list of actions, the place a read delivers to and the refusal's
name are the model's choices (logs 1, 8 and 9). The clause on reads holds while reset is asserted too, where what a read
returns is the model's inference (log 7). -/
def Obligations.RegisterWindowAccess : Prop :=
  (∀ (s : State) (v : Word) (rest : List HostAction),
    s.inReset = false → s.hostq = .regWrite s.cfg.regBase 4 v :: rest →
    step s = runCommand v { s with hostq := rest, cmd := v }) ∧
  (∀ (s : State) (offset : Nat) (v : Word) (rest : List HostAction),
    s.inReset = false → 0x04 ≤ offset → offset ≤ 0x3C → offset % 4 = 0 →
    s.hostq = .regWrite (s.cfg.regBase + offset) 4 v :: rest →
    step s = .next (if offset = 0x04 then { s with hostq := rest, arg0 := v }
      else if offset = 0x08 then { s with hostq := rest, arg1 := v }
      else if offset = 0x0C then { s with hostq := rest, arg2 := v }
      else { s with hostq := rest })) ∧
  (∀ (s : State) (offset : Nat) (rest : List HostAction),
    offset ≤ 0x3C → offset % 4 = 0 → s.hostq = .regRead (s.cfg.regBase + offset) 4 :: rest →
    step s = .next { s with hostq := rest, hostData :=
      if offset = 0x00 then s.cmd else if offset = 0x04 then s.arg0 else if offset = 0x08 then s.arg1
      else if offset = 0x0C then s.arg2 else if offset = 0x10 then s.result
      else if offset = 0x14 then s.status &&& 0xFF else if offset = 0x18 then s.diagCount else 0 }) ∧
  (∀ (s : State) (addr bytes : Nat) (v : Word) (rest : List HostAction),
    s.cfg.wf → s.cfg.regBase ≤ addr → addr < s.cfg.regBase + 0x40 → (bytes ≠ 4 ∨ addr % 4 ≠ 0) →
    (s.hostq = .regWrite addr bytes v :: rest ∨ s.hostq = .regRead addr bytes :: rest) →
    step s = .refused .hostAccessSize) ∧
  (State.reset.cmd = 0 ∧ State.reset.arg0 = 0 ∧ State.reset.arg1 = 0 ∧ State.reset.arg2 = 0 ∧
    State.reset.result = 0 ∧ State.reset.status = 0 ∧ State.reset.diagCount = 0)

/-- The host reads and writes single bytes of HMEM (10_state.md section 5): a write changes the byte at its address and no
other, a read delivers the byte and changes no register of the block and no byte. Where the byte is delivered is the
model's choice (log 8), and so are the fault at an address that does not exist (log 10) and the list of actions (log 1). -/
def Obligations.HostReadsAndWritesHmemBytes : Prop :=
  (∀ (s : State) (a : Nat) (v : Byte) (rest : List HostAction),
    a < s.cfg.hmemBytes → s.hostq = .memWrite a v :: rest →
    ∃ m, step s = .next { s with hostq := rest, hmem := m } ∧
      ∀ b, ({ s with hostq := rest, hmem := m } : State).memRead b = if b = a then v else s.memRead b) ∧
  (∀ (s : State) (a : Nat) (rest : List HostAction),
    a < s.cfg.hmemBytes → s.hostq = .memRead a :: rest →
    step s = .next { s with hostq := rest, hostData := (s.memRead a).setWidth 32 }) ∧
  (∀ (s : State) (a : Nat) (v : Byte) (rest : List HostAction),
    s.cfg.hmemBytes ≤ a → (s.hostq = .memWrite a v :: rest ∨ s.hostq = .memRead a :: rest) →
    step s = .fault (.hmemAddress a))

/-- Where a step is refused for the host's sake. That an access outside the register window is refused at all is the model's
choice (log 9): the spec says nothing of it. That an action while a command is in flight is refused is
93_implementation_defined.md's, U1 and U2, and only the form and the name are the model's (log 11). The list of actions is
the model's too (log 1). -/
def Obligations.HostActionsOutsideTheSpecAreRefused : Prop :=
  (∀ (s : State) (addr bytes : Nat) (v : Word) (rest : List HostAction),
    (addr < s.cfg.regBase ∨ s.cfg.regBase + 0x40 ≤ addr) →
    (s.hostq = .regWrite addr bytes v :: rest ∨ s.hostq = .regRead addr bytes :: rest) →
    step s = .refused .hostOutsideWindow) ∧
  (∀ (s : State) (rest : List HostAction), s.hostq = .duringCommand :: rest → step s = .refused .hostDuringCommand)

/-- Reset (70_reset_and_hazards.md section 1) gives every state element its value of 10_state.md section 7, runs nothing, and
leaves HMEM and the parameters; while it is asserted no command runs and writes of the window are lost; after power-up and
release the same values stand. The form of the reset line and the list of actions are the model's choices (logs 1
and 7). -/
def Obligations.ResetGivesEveryElementItsValue : Prop :=
  (∀ (s : State) (rest : List HostAction), s.hostq = .assertReset :: rest →
    ∃ t, step s = .next t ∧ t.cmd = 0 ∧ t.arg0 = 0 ∧ t.arg1 = 0 ∧ t.arg2 = 0 ∧ t.result = 0 ∧ t.status = 0 ∧
      t.diagCount = 0 ∧ t.bw.sr = 0 ∧ t.bw.pb = 0 ∧ t.bw.wcnt = 0 ∧ t.br.base = 0 ∧ t.br.bits = 0 ∧ t.br.cur = 0 ∧
      t.hmem = s.hmem ∧ t.cfg = s.cfg ∧ t.inReset = true ∧ t.hostq = rest ∧ t.hostData = s.hostData) ∧
  (∀ (s : State) (offset : Nat) (v : Word) (rest : List HostAction),
    s.inReset = true → offset ≤ 0x3C → offset % 4 = 0 → s.hostq = .regWrite (s.cfg.regBase + offset) 4 v :: rest →
    step s = .next { s with hostq := rest }) ∧
  (∀ (s : State) (rest : List HostAction), s.hostq = .releaseReset :: rest →
    step s = .next { s with hostq := rest, inReset := false }) ∧
  (State.reset.cmd = 0 ∧ State.reset.arg0 = 0 ∧ State.reset.arg1 = 0 ∧ State.reset.arg2 = 0 ∧
    State.reset.result = 0 ∧ State.reset.status = 0 ∧ State.reset.diagCount = 0 ∧ State.reset.bw.sr = 0 ∧
    State.reset.bw.pb = 0 ∧ State.reset.bw.wcnt = 0 ∧ State.reset.br.base = 0 ∧ State.reset.br.bits = 0 ∧
    State.reset.br.cur = 0)

/-- What the reset state answers: W_TELL gives 0, W_COPY_OUT copies nothing, R_GET_BITS 0 succeeds, and every read of one
bit or more ends in ERR_OVERRUN. The spec marks 70_reset_and_hazards.md R291 as derived. -/
def Obligations.AfterResetWriterAndReaderAreEmpty : Prop :=
  exec .wTell State.reset = .next { State.reset with status := 0, result := 0 } ∧
  exec .wCopyOut State.reset = .next { State.reset with status := 0, result := 0 } ∧
  exec (.rGetBits 0) State.reset = .next { State.reset with status := 0, result := 0 } ∧
  (∀ n, 1 ≤ n → n ≤ 32 → exec (.rGetBits n) State.reset = .next (State.reset.afterError 0x14)) ∧
  exec .rGetUe State.reset = .next (State.reset.afterError 0x14) ∧
  exec .rGetSe State.reset = .next (State.reset.afterError 0x14)

/-- Every step takes exactly the host's next action and leaves the parameters as they are (10_state.md sections 2 and 6: the
host's sequence is the program; parameters are never written). The list of actions is the model's own (log 1). -/
def Obligations.StepTakesOneActionAndKeepsParameters : Prop :=
  ∀ s t : State, step s = .next t → t.hostq = s.hostq.tail ∧ t.cfg = s.cfg

/-! Invariants and what holds of every command. -/

/-- The invariant holds in the reset state. It rests on the default parameters, which are the model's choice at reset
(log 3). -/
def Obligations.InvariantHoldsAtReset : Prop := BlockInv State.reset

/-- Every step keeps the invariant: 0 ≤ PB ≤ 7, SR < 2^PB, WCNT ≤ WBUF_CAP, RCUR ≤ RBITS, the read buffer inside HMEM, the
memories in canonical form and inside their spaces, STATUS one of the eleven codes with 0 above. The spec marks 10_state.md
R34 and 60_exceptions.md R267 as derived; R36 gives the reader's part for every command. -/
def Obligations.EveryStepKeepsTheInvariant : Prop :=
  ∀ s t : State, BlockInv s → step s = .next t → BlockInv t

/-- No command, in any state, leaves the block unable to go on: each answers a next state and keeps the invariant. The spec
marks 60_exceptions.md R267 as derived. -/
def Obligations.EveryCommandLeavesTheBlockReady : Prop :=
  ∀ (i : Instr) (s : State), ∃ t, exec i s = .next t ∧ (BlockInv s → BlockInv t)

/-- 60_exceptions.md R261: a command that ends in an error leaves STATUS the code, RESULT 0 and DIAG_COUNT one more modulo
2^32, and everything else as it was; one that completes leaves DIAG_COUNT as it was. -/
def Obligations.ErrorsArePreciseAndCounted : Prop :=
  ∀ (i : Instr) (s t : State), exec i s = .next t →
    (0x10 ≤ t.status.toNat ∧ t = { s with status := t.status, result := 0, diagCount := s.diagCount + 1 }) ∨
    (t.status.toNat < 0x10 ∧ t.diagCount = s.diagCount)

/-- The codes each command can report, and 0 above them in STATUS. The spec marks 60_exceptions.md R262 as derived. -/
def Obligations.CommandsReportOnlyTheirCodes : Prop :=
  ∀ (i : Instr) (s t : State), exec i s = .next t → ∃ c ∈ reportedCodes i, t.status = c.setWidth 32

/-- DIAG_COUNT changes only by reset, or by one, modulo 2^32, in a step that ends a command in an error (10_state.md
section 2). The list of actions is the model's choice (log 1). -/
def Obligations.OnlyErrorsAndResetChangeDiagCount : Prop :=
  ∀ s t : State, step s = .next t → (∀ rest, s.hostq ≠ .assertReset :: rest) →
    t.diagCount = s.diagCount ∨
    (t.diagCount = s.diagCount + 1 ∧ 0x10 ≤ t.status.toNat ∧ t.result = 0 ∧
      ∃ v rest, s.hostq = .regWrite s.cfg.regBase 4 v :: rest)

/-- No command writes CMD, ARG0 to ARG2 or the parameters, nor anything of the host's (10_state.md section 2). -/
def Obligations.CommandsKeepOperandsAndHost : Prop :=
  ∀ (i : Instr) (s t : State), exec i s = .next t →
    t.cmd = s.cmd ∧ t.arg0 = s.arg0 ∧ t.arg1 = s.arg1 ∧ t.arg2 = s.arg2 ∧ t.cfg = s.cfg ∧ t.inReset = s.inReset ∧
    t.hostq = s.hostq ∧ t.hostData = s.hostData

/-- Each unit's state belongs to its own commands: only W_COPY_OUT and SEI_BUILD may change HMEM, only writer commands the
writer (W_TELL and W_COPY_OUT do not), only reader commands the reader (20_memory.md section 4; 40_bit_writer.md, 41_bit_reader.md,
43_sei_frame_builder.md section 2). -/
def Obligations.UnitsKeepToTheirState : Prop :=
  ∀ (i : Instr) (s t : State), exec i s = .next t →
    (i.mayWriteHmem = false → t.hmem = s.hmem ∧ ∀ a, t.memRead a = s.memRead a) ∧
    (i.isWriter = false ∨ i = .wTell ∨ i = .wCopyOut → t.bw = s.bw) ∧
    (i.isReader = false ∨ i = .rBitsCount ∨ i = .rBitsLeft → t.br = s.br)

/-- Only W_INIT and W_CLEAR change a committed byte or lower WCNT. The spec marks 40_bit_writer.md R141 as derived. -/
def Obligations.CommittedBytesAreNeverRewritten : Prop :=
  ∀ (i : Instr) (s t : State), exec i s = .next t → i ≠ .wInit → i ≠ .wClear →
    s.bw.wcnt ≤ t.bw.wcnt ∧ ∀ k < s.bw.wcnt, t.bw.byte k = s.bw.byte k

/-- TELL grows by the bits each completed command appends, and by none for a failed one; W_INIT and W_CLEAR set it to 0. The
spec marks 40_bit_writer.md R139 as derived. -/
def Obligations.TellCountsTheBitsAppended : Prop :=
  ∀ (i : Instr) (s t : State), exec i s = .next t →
    (i ≠ .wInit → i ≠ .wClear → t.bw.tell = s.bw.tell + if t.status.toNat < 0x10 then appendedBits i s else 0) ∧
    (i = .wInit ∨ i = .wClear → t.bw.tell = 0)

/-- 10_state.md R29: every command writes STATUS.CODE and none reads it: the outcome is the same whatever STATUS held (nor
does any command read RESULT or CMD). -/
def Obligations.NoCommandReadsStatus : Prop :=
  ∀ (i : Instr) (s t : State) (status result cmd : Word), exec i s = .next t →
    (∃ c ∈ reportedCodes i, t.status = c.setWidth 32) ∧
    exec i { s with status := status, result := result, cmd := cmd } = .next { t with cmd := cmd }

/-- A command reads only the ARG registers listed for it: the others may hold anything (30_encoding.md part A, operand
registers). -/
def Obligations.CommandsReadOnlyTheirOperands : Prop :=
  ∀ (i : Instr) (s t : State) (a b c : Word), exec i s = .next t →
    (i.operandCount ≤ 2 → exec i { s with arg2 := c } = .next { t with arg2 := c }) ∧
    (i.operandCount ≤ 1 → exec i { s with arg1 := b, arg2 := c } = .next { t with arg1 := b, arg2 := c }) ∧
    (i.operandCount = 0 →
      exec i { s with arg0 := a, arg1 := b, arg2 := c } = .next { t with arg0 := a, arg1 := b, arg2 := c })

/-- A reader command depends on no byte of HMEM outside RBASE to RBASE + ceil8(RBITS) - 1. The spec marks 41_bit_reader.md
R170 as derived. -/
def Obligations.ReadsStayInsideTheBuffer : Prop :=
  ∀ (i : Instr) (s t : State) (m : Memory), i.isReader = true → exec i s = .next t →
    (∀ a, s.br.base.toNat ≤ a → a < s.br.base.toNat + (s.br.bits.toNat + 7) / 8 →
      ({ s with hmem := m } : State).memRead a = s.memRead a) →
    exec i { s with hmem := m } = .next { t with hmem := m }

/-! The writer. -/

/-- W_INIT and W_CLEAR empty the stream and change no other register and no byte of HMEM (40_bit_writer.md section 2, W_INIT
and W_CLEAR). The spec leaves WBUF's contents after them unspecified; that the old bytes stay in it is the model's choice
(log 5). -/
def Obligations.InitAndClearEmptyTheStream : Prop :=
  decode 0x01000000 = .command .wInit ∧ decode 0x08000000 = .command .wClear ∧
  ∀ s : State,
    exec .wInit s = .next { s with bw := { s.bw with sr := 0, pb := 0, wcnt := 0 }, status := 0, result := 0 } ∧
    exec .wClear s = .next { s with bw := { s.bw with sr := 0, pb := 0, wcnt := 0 }, status := 0, result := 0 } ∧
    ({ s.bw with sr := 0, pb := 0, wcnt := 0 } : BitWriter).stream = []

/-- 40_bit_writer.md R134: W_PUT of a width up to 32 whose bits fit appends the low w bits of ARG0, most significant first,
and changes nothing but the writer, STATUS and RESULT; ERR_WIDTH above 32 bits comes before ERR_NOMEM, and neither appends
anything. -/
def Obligations.PutAppendsTheField : Prop :=
  (∀ w ≤ 63, decode (0x02000000 ||| BitVec.ofNat 32 w) = .command (.wPut w)) ∧
  (∀ (s : State) (w : Nat), s.bw.Ok s.wbufCap → w ≤ 32 → s.bw.wcnt + (s.bw.pb + w) / 8 ≤ s.wbufCap →
    ∃ bw : BitWriter, exec (.wPut w) s = .next { s with bw := bw, status := 0, result := 0 } ∧
      bw.stream = s.bw.stream ++ bin w s.arg0.toNat ∧ bw.Ok s.wbufCap) ∧
  (∀ (s : State) (w : Nat), 32 < w → exec (.wPut w) s = .next (s.afterError 0x11)) ∧
  (∀ (s : State) (w : Nat), w ≤ 32 → s.wbufCap < s.bw.wcnt + (s.bw.pb + w) / 8 →
    exec (.wPut w) s = .next (s.afterError 0x13))

/-- 42_exp_golomb.md R201: W_PUT_UE of a value up to 2^32 - 2 whose code fits appends L zeros and the L + 1 bits of v + 1,
where L = floor(log2(v + 1)), split or not, and changes nothing but the writer, STATUS and RESULT; ERR_UE_RANGE for
2^32 - 1 comes before ERR_NOMEM, and neither appends anything. -/
def Obligations.PutUeAppendsTheCode : Prop :=
  decode 0x03000000 = .command .wPutUe ∧
  (∀ (s : State) (L : Nat), s.bw.Ok s.wbufCap → s.arg0.toNat ≤ 2 ^ 32 - 2 → L = Nat.log2 (s.arg0.toNat + 1) →
    s.bw.wcnt + (s.bw.pb + (2 * L + 1)) / 8 ≤ s.wbufCap →
    ∃ bw : BitWriter, exec .wPutUe s = .next { s with bw := bw, status := 0, result := 0 } ∧
      bw.stream = s.bw.stream ++ List.replicate L false ++ bin (L + 1) (s.arg0.toNat + 1) ∧ bw.Ok s.wbufCap) ∧
  (∀ s : State, s.arg0 = 0xFFFFFFFF → exec .wPutUe s = .next (s.afterError 0x12)) ∧
  (∀ (s : State) (L : Nat), s.arg0 ≠ 0xFFFFFFFF → L = Nat.log2 (s.arg0.toNat + 1) →
    s.wbufCap < s.bw.wcnt + (s.bw.pb + (2 * L + 1)) / 8 → exec .wPutUe s = .next (s.afterError 0x13))

/-- 42_exp_golomb.md R203: W_PUT_SE of any k but -2^31 whose code fits appends ue(u), with u = 2k - 1 for positive k and -2k
otherwise, and changes nothing but the writer, STATUS and RESULT; ERR_UE_RANGE for -2^31 comes before ERR_NOMEM, and neither
appends anything. -/
def Obligations.PutSeAppendsTheCode : Prop :=
  decode 0x04000000 = .command .wPutSe ∧
  (∀ (s : State) (u L : Nat), s.bw.Ok s.wbufCap → s.arg0 ≠ 0x80000000 →
    (u : Int) = (if 0 < s.arg0.toInt then 2 * s.arg0.toInt - 1 else -2 * s.arg0.toInt) → L = Nat.log2 (u + 1) →
    s.bw.wcnt + (s.bw.pb + (2 * L + 1)) / 8 ≤ s.wbufCap →
    ∃ bw : BitWriter, exec .wPutSe s = .next { s with bw := bw, status := 0, result := 0 } ∧
      bw.stream = s.bw.stream ++ List.replicate L false ++ bin (L + 1) (u + 1) ∧ bw.Ok s.wbufCap) ∧
  (∀ s : State, s.arg0 = 0x80000000 → exec .wPutSe s = .next (s.afterError 0x12)) ∧
  (∀ (s : State) (u L : Nat), s.arg0 ≠ 0x80000000 →
    (u : Int) = (if 0 < s.arg0.toInt then 2 * s.arg0.toInt - 1 else -2 * s.arg0.toInt) → L = Nat.log2 (u + 1) →
    s.wbufCap < s.bw.wcnt + (s.bw.pb + (2 * L + 1)) / 8 → exec .wPutSe s = .next (s.afterError 0x13))

/-- 40_bit_writer.md R135: W_ALIGN_ZERO changes nothing of the writer when no bits are pending; else, with room, it commits
the byte SR * 2^(8 - PB), so the stream grows by 8 - PB zeros; with WBUF full it ends in ERR_NOMEM and the bits stay
pending. -/
def Obligations.AlignZeroPadsToTheByte : Prop :=
  decode 0x05000000 = .command .wAlignZero ∧
  (∀ s : State, s.bw.pb = 0 → exec .wAlignZero s = .next { s with status := 0, result := 0 }) ∧
  (∀ s : State, s.bw.Ok s.wbufCap → s.bw.pb ≠ 0 → s.bw.wcnt < s.wbufCap →
    ∃ bw : BitWriter, exec .wAlignZero s = .next { s with bw := bw, status := 0, result := 0 } ∧
      bw.sr = 0 ∧ bw.pb = 0 ∧ bw.wcnt = s.bw.wcnt + 1 ∧ bw.byte s.bw.wcnt = s.bw.sr <<< (8 - s.bw.pb) ∧
      bw.stream = s.bw.stream ++ List.replicate (8 - s.bw.pb) false ∧ bw.Ok s.wbufCap) ∧
  (∀ s : State, s.bw.Ok s.wbufCap → s.bw.pb ≠ 0 → s.bw.wcnt = s.wbufCap →
    exec .wAlignZero s = .next (s.afterError 0x13))

/-- A second W_ALIGN_ZERO in a row leaves the writer as the first left it, and the first one changes nothing if the stream
was aligned. The spec marks 40_bit_writer.md R140 as derived. -/
def Obligations.AligningTwiceIsAligningOnce : Prop :=
  ∀ s t : State, s.bw.pb ≤ 7 → exec .wAlignZero s = .next t → t.status = 0 →
    t.bw.pb = 0 ∧ exec .wAlignZero t = .next { t with status := 0, result := 0 } ∧ (s.bw.pb = 0 → t.bw = s.bw)

/-- 40_bit_writer.md R136: W_TELL returns 8*WCNT + PB, the length of the stream, exactly, and changes nothing else. -/
def Obligations.TellReturnsTheStreamLength : Prop :=
  decode 0x06000000 = .command .wTell ∧
  ∀ s : State, s.cfg.wf → s.bw.Ok s.wbufCap →
    ∃ r : Word, exec .wTell s = .next { s with status := 0, result := r } ∧
      r.toNat = 8 * s.bw.wcnt + s.bw.pb ∧ r.toNat = s.bw.stream.length

/-- 40_bit_writer.md R137: W_COPY_OUT to a range inside HMEM puts WBUF[i] at ARG0 + i for i below WCNT, leaves every other
byte of HMEM and the writer alone, and returns WCNT; a range that leaves HMEM ends in ERR_RANGE with nothing written. -/
def Obligations.CopyOutWritesTheCommittedBytes : Prop :=
  decode 0x07000000 = .command .wCopyOut ∧
  (∀ s : State, s.cfg.wf → s.bw.Ok s.wbufCap → s.arg0.toNat + s.bw.wcnt ≤ s.cfg.hmemBytes →
    ∃ (m : Memory) (r : Word), exec .wCopyOut s = .next { s with hmem := m, status := 0, result := r } ∧
      r.toNat = s.bw.wcnt ∧
      ∀ a, ({ s with hmem := m } : State).memRead a =
        if s.arg0.toNat ≤ a ∧ a < s.arg0.toNat + s.bw.wcnt then s.bw.byte (a - s.arg0.toNat) else s.memRead a) ∧
  (∀ s : State, s.cfg.hmemBytes < s.arg0.toNat + s.bw.wcnt → exec .wCopyOut s = .next (s.afterError 0x15))

/-- The stream copied out to d and attached by R_INIT d, n reads back bit by bit: position p of the reader is bit p of the
stream. The spec marks 20_memory.md R64 as derived. -/
def Obligations.CopiedStreamReadsBackBitByBit : Prop :=
  ∀ (s : State) (d n : Word), BlockInv s → n.toNat ≤ 8 * s.bw.wcnt → d.toNat + s.bw.wcnt ≤ s.cfg.hmemBytes →
    ∃ t u, exec .wCopyOut { s with arg0 := d } = .next t ∧ t.status = 0 ∧
      exec .rInit { t with arg0 := d, arg1 := n } = .next u ∧ u.status = 0 ∧ u.br.cur = 0 ∧
      u.readerBits 0 n.toNat = s.bw.stream.take n.toNat

/-- W_TRAILING on a byte-aligned stream with room appends the byte 0x80 (30_encoding.md part C, pseudo-commands). -/
def Obligations.TrailingBitsAppendEighty : Prop :=
  ∀ s : State, s.bw.Ok s.wbufCap → s.bw.pb = 0 → s.bw.wcnt < s.wbufCap →
    ∃ t u, exec (.wPut 1) { s with arg0 := 1 } = .next t ∧ t.status = 0 ∧ exec .wAlignZero t = .next u ∧
      u.status = 0 ∧ u.bw.wcnt = s.bw.wcnt + 1 ∧ u.bw.pb = 0 ∧ u.bw.byte s.bw.wcnt = 0x80 ∧
      ∀ k < s.bw.wcnt, u.bw.byte k = s.bw.byte k

/-! The reader. -/

/-- 41_bit_reader.md R172: R_INIT attaches the reader to a buffer inside HMEM with the cursor at 0, and else ends in
ERR_RANGE with the old buffer kept; it reads no byte. -/
def Obligations.ReaderInitAttachesTheBuffer : Prop :=
  decode 0x10000000 = .command .rInit ∧
  (∀ s : State, s.arg0.toNat + (s.arg1.toNat + 7) / 8 ≤ s.cfg.hmemBytes →
    exec .rInit s = .next { s with br := { base := s.arg0, bits := s.arg1, cur := 0 }, status := 0, result := 0 }) ∧
  (∀ s : State, s.cfg.hmemBytes < s.arg0.toNat + (s.arg1.toNat + 7) / 8 →
    exec .rInit s = .next (s.afterError 0x15))

/-- 41_bit_reader.md R173 and R177: R_GET_BITS gives the one result for every n and every cursor position: the n bits from
the cursor, first bit most significant, and a cursor moved by n; ERR_WIDTH above 32 bits; ERR_OVERRUN where fewer than n bits
are left. Nothing else changes. -/
def Obligations.GetBitsReadsTheFieldAtEveryPosition : Prop :=
  (∀ n ≤ 63, decode (0x11000000 ||| BitVec.ofNat 32 n) = .command (.rGetBits n)) ∧
  (∀ (s : State) (n : Nat), n ≤ 32 → s.br.cur.toNat + n ≤ s.br.bits.toNat →
    ∃ r cur : Word, exec (.rGetBits n) s =
        .next { s with br := { s.br with cur := cur }, status := 0, result := r } ∧
      cur.toNat = s.br.cur.toNat + n ∧ r.toNat < 2 ^ n ∧
      ∀ i < n, r.toNat.testBit (n - 1 - i) =
        (s.memRead (s.br.base.toNat + (s.br.cur.toNat + i) / 8)).getLsbD (7 - (s.br.cur.toNat + i) % 8)) ∧
  (∀ (s : State) (n : Nat), 32 < n → exec (.rGetBits n) s = .next (s.afterError 0x11)) ∧
  (∀ (s : State) (n : Nat), n ≤ 32 → s.br.bits.toNat < s.br.cur.toNat + n →
    exec (.rGetBits n) s = .next (s.afterError 0x14))

/-- 41_bit_reader.md R174: R_SKIP_BITS moves the cursor by ARG0 up to the end; past it, on the exact sum, it completes with
SKIP_NOP and moves nothing. Neither counts as an error. -/
def Obligations.SkipBitsMovesOrSoftFails : Prop :=
  decode 0x14000000 = .command .rSkipBits ∧
  (∀ s : State, s.br.cur.toNat + s.arg0.toNat ≤ s.br.bits.toNat →
    ∃ cur : Word, exec .rSkipBits s = .next { s with br := { s.br with cur := cur }, status := 0, result := 0 } ∧
      cur.toNat = s.br.cur.toNat + s.arg0.toNat) ∧
  (∀ s : State, s.br.bits.toNat < s.br.cur.toNat + s.arg0.toNat →
    exec .rSkipBits s = .next { s with status := 0x01, result := 0 })

/-- 41_bit_reader.md R175 and R176: R_BITS_COUNT returns the cursor and R_BITS_LEFT the bits after it, RBITS - RCUR. -/
def Obligations.BitsCountAndBitsLeft : Prop :=
  decode 0x15000000 = .command .rBitsCount ∧ decode 0x16000000 = .command .rBitsLeft ∧
  (∀ s : State, exec .rBitsCount s = .next { s with status := 0, result := s.br.cur }) ∧
  (∀ s : State, s.br.cur.toNat ≤ s.br.bits.toNat →
    ∃ r : Word, exec .rBitsLeft s = .next { s with status := 0, result := r } ∧
      r.toNat + s.br.cur.toNat = s.br.bits.toNat)

/-- 42_exp_golomb.md R204: R_GET_UE on a buffer that holds L zeros (L ≤ 31), a 1 and L more bits of value x returns
2^L - 1 + x, moves the cursor past them and changes nothing else. 32 zeros give UE_GUARD with 0 and the cursor just past
them; a buffer that ends before the 1 bit, or inside the suffix, gives ERR_OVERRUN with the cursor unmoved. -/
def Obligations.GetUeReadsTheCode : Prop :=
  decode 0x12000000 = .command .rGetUe ∧
  (∀ (s : State) (L x : Nat), L ≤ 31 → x < 2 ^ L → s.br.cur.toNat + (2 * L + 1) ≤ s.br.bits.toNat →
    s.readerBits s.br.cur.toNat (2 * L + 1) = List.replicate L false ++ [true] ++ bin L x →
    ∃ r cur : Word, exec .rGetUe s =
        .next { s with br := { s.br with cur := cur }, status := 0, result := r } ∧
      r.toNat = 2 ^ L - 1 + x ∧ cur.toNat = s.br.cur.toNat + (2 * L + 1)) ∧
  (∀ s : State, s.br.cur.toNat + 32 ≤ s.br.bits.toNat → (∀ i < 32, s.rdBit (s.br.cur.toNat + i) = false) →
    ∃ cur : Word, exec .rGetUe s = .next { s with br := { s.br with cur := cur }, status := 0x02, result := 0 } ∧
      cur.toNat = s.br.cur.toNat + 32) ∧
  (∀ (s : State) (k : Nat), k < 32 → s.br.bits.toNat ≤ s.br.cur.toNat + k →
    (∀ i < k, s.rdBit (s.br.cur.toNat + i) = false) → exec .rGetUe s = .next (s.afterError 0x14)) ∧
  (∀ (s : State) (L : Nat), L ≤ 31 → s.br.cur.toNat + L < s.br.bits.toNat →
    (∀ i < L, s.rdBit (s.br.cur.toNat + i) = false) → s.rdBit (s.br.cur.toNat + L) = true →
    s.br.bits.toNat < s.br.cur.toNat + (2 * L + 1) → exec .rGetUe s = .next (s.afterError 0x14))

/-- R_GET_SE on a buffer that holds L zeros (L ≤ 31), a 1 and L more bits of value x returns the k of the zig-zag value
u = 2^L - 1 + x, as a 32-bit two's complement word, and moves the cursor past them (42_exp_golomb.md section 2,
R_GET_SE). -/
def Obligations.GetSeReadsTheCode : Prop :=
  ∀ (s : State) (L x : Nat) (k : Int), L ≤ 31 → x < 2 ^ L → s.br.cur.toNat + (2 * L + 1) ≤ s.br.bits.toNat →
    s.readerBits s.br.cur.toNat (2 * L + 1) = List.replicate L false ++ [true] ++ bin L x →
    ((2 ^ L - 1 + x : Nat) : Int) = (if 0 < k then 2 * k - 1 else -2 * k) →
    ∃ r cur : Word, exec .rGetSe s =
        .next { s with br := { s.br with cur := cur }, status := 0, result := r } ∧
      r.toInt = k ∧ cur.toNat = s.br.cur.toNat + (2 * L + 1)

/-- 42_exp_golomb.md R205: R_GET_SE ends as R_GET_UE does: the same state, with the inverse zig-zag of the result, so 0 under
the guard and on an error. -/
def Obligations.GetSeIsGetUeUnzigzagged : Prop :=
  decode 0x13000000 = .command .rGetSe ∧
  ∀ (s t : State) (r : Word), exec .rGetUe s = .next t →
    r = BitVec.ofInt 32 (if t.result.toNat % 2 = 1 then ((t.result.toNat : Int) + 1) / 2 else -((t.result.toNat : Int) / 2)) →
    exec .rGetSe s = .next { t with result := r }

/-! Codes. -/

/-- zz and its inverse undo each other on the se range and the ue range. The spec marks 30_encoding.md R102 as derived. -/
def Obligations.ZigzagRoundTrips : Prop :=
  (∀ k : Int, -(2 ^ 31 - 1) ≤ k → k ≤ 2 ^ 31 - 1 → zz k ≤ 2 ^ 32 - 2 ∧ izz (zz k) = k) ∧
  (∀ u : Nat, u ≤ 2 ^ 32 - 2 → -(2 ^ 31 - 1) ≤ izz u ∧ izz u ≤ 2 ^ 31 - 1 ∧ zz (izz u) = u)

/-- The length of a ue code over each range of values, and the code's first 1 at position L. The spec marks 42_exp_golomb.md
R200 as derived. -/
def Obligations.UeCodeLengths : Prop :=
  ∀ L v : Nat, 2 ^ L - 1 ≤ v → v ≤ 2 ^ (L + 1) - 2 →
    ueLen v = 2 * L + 1 ∧ (ueBits v).length = 2 * L + 1 ∧
    ueBits v = List.replicate L false ++ [true] ++ bin L (v - (2 ^ L - 1))

/-! The SEI frame builder. -/

/-- 43_sei_frame_builder.md R232: SEI_BUILD, where the frame is within budget, both ranges lie in HMEM and do not overlap,
writes the start code, the NAL header of the family, the type byte, the size bytes, the payload and 0x80 from ARG2 up, leaves
every other byte and every other register alone, and returns the frame's length. The errors come in their order: ERR_SEI_SIZE,
ERR_RANGE of the payload, ERR_RANGE of the output, ERR_OVERLAP; nothing is written then. -/
def Obligations.SeiBuildWritesTheFrame : Prop :=
  (∀ (f : Family) (t : Byte), decode (0x20000000 ||| (match f with | .oneByte => 0x000 | .twoByte => 0x100) |||
    t.setWidth 32) = .command (.seiBuild f t)) ∧
  (∀ (s : State) (f : Family) (t : Byte) (h : List Byte) (total : Nat), s.cfg.wf →
    h = (match f with
      | .oneByte => [s.cfg.nalHdr1B]
      | .twoByte => [s.cfg.nalHdr2BFirst, s.cfg.nalHdr2BSecond]) →
    total = s.arg1.toNat + s.arg1.toNat / 255 + h.length + 7 → total ≤ s.cfg.seiMaxBytes →
    s.arg0.toNat + s.arg1.toNat ≤ s.cfg.hmemBytes → s.arg2.toNat + total ≤ s.cfg.hmemBytes →
    (s.arg1.toNat = 0 ∨ s.arg2.toNat + total ≤ s.arg0.toNat ∨ s.arg0.toNat + s.arg1.toNat ≤ s.arg2.toNat) →
    ∃ (m : Memory) (r : Word), exec (.seiBuild f t) s = .next { s with hmem := m, status := 0, result := r } ∧
      r.toNat = total ∧
      ∀ a, ({ s with hmem := m } : State).memRead a =
        if s.arg2.toNat ≤ a ∧ a < s.arg2.toNat + total then
          ([0x00, 0x00, 0x00, 0x01] ++ h ++ [t] ++ List.replicate (s.arg1.toNat / 255) 0xFF ++
            [BitVec.ofNat 8 (s.arg1.toNat % 255)] ++
            (List.range s.arg1.toNat).map (fun i => s.memRead (s.arg0.toNat + i)) ++
            [0x80]).getD (a - s.arg2.toNat) 0
        else s.memRead a) ∧
  (∀ (s : State) (f : Family) (t : Byte) (total : Nat),
    total = s.arg1.toNat + s.arg1.toNat / 255 + (match f with | .oneByte => 1 | .twoByte => 2) + 7 →
    (s.cfg.seiMaxBytes < total → exec (.seiBuild f t) s = .next (s.afterError 0x16)) ∧
    (total ≤ s.cfg.seiMaxBytes →
      (s.cfg.hmemBytes < s.arg0.toNat + s.arg1.toNat → exec (.seiBuild f t) s = .next (s.afterError 0x15)) ∧
      (s.arg0.toNat + s.arg1.toNat ≤ s.cfg.hmemBytes →
        (s.cfg.hmemBytes < s.arg2.toNat + total → exec (.seiBuild f t) s = .next (s.afterError 0x15)) ∧
        (s.arg2.toNat + total ≤ s.cfg.hmemBytes → 0 < s.arg1.toNat → s.arg0.toNat < s.arg2.toNat + total →
          s.arg2.toNat < s.arg0.toNat + s.arg1.toNat → exec (.seiBuild f t) s = .next (s.afterError 0x17)))))

/-- The frame of a payload of S bytes is S + S div 255 + H(f) + 7 bytes long, which is FrameLen. The spec marks
43_sei_frame_builder.md R230 as derived. -/
def Obligations.FrameHasItsLength : Prop :=
  ∀ (p : Config.Params) (f : Family) (t : Byte) (payload : List Byte),
    (frame p f t payload).length =
      payload.length + payload.length / 255 + (match f with | .oneByte => 1 | .twoByte => 2) + 7 ∧
    (frame p f t payload).length = frameLen f payload.length

/-- From the size bytes of a frame, ff-continuation parsing gives the payload's length, and the payload and the trailer
follow. The spec marks 43_sei_frame_builder.md R233 as derived. -/
def Obligations.SizeBytesReadBack : Prop :=
  (∀ (n : Nat) (rest : List Byte), parseSize (sizeBytes n ++ rest) = some (n, rest)) ∧
  (∀ (p : Config.Params) (f : Family) (t : Byte) (payload : List Byte),
    parseSize ((frame p f t payload).drop (4 + nalHdrLen f + 1)) = some (payload.length, payload ++ [0x80]))

/-- The frames of the two families differ in the NAL header alone: the four bytes before it and every byte after it are the
same. The spec marks 43_sei_frame_builder.md R235 as derived. -/
def Obligations.FamiliesDifferInTheHeaderAlone : Prop :=
  ∀ (p : Config.Params) (t : Byte) (payload : List Byte),
    (frame p .oneByte t payload).take 4 = (frame p .twoByte t payload).take 4 ∧
    (frame p .oneByte t payload).drop 5 = (frame p .twoByte t payload).drop 6 ∧
    (frame p .oneByte t payload)[4]? = some p.nalHdr1B ∧
    (frame p .twoByte t payload)[4]? = some p.nalHdr2BFirst ∧
    (frame p .twoByte t payload)[5]? = some p.nalHdr2BSecond

/-! Round trips through the machine. -/

/-- From an empty writer with room, W_PUT_UE v, W_ALIGN_ZERO, W_COPY_OUT d, R_INIT d, 8*WCNT and R_GET_UE return v with OK
and the cursor at UeLen(v), for every v up to 2^32 - 2. The spec marks 42_exp_golomb.md R206 as derived. -/
def Obligations.ExpGolombIdentityUnsigned : Prop :=
  ∀ (s : State) (v d : Word), BlockInv s → s.bw.wcnt = 0 → s.bw.pb = 0 → v ≠ 0xFFFFFFFF →
    (ueLen v.toNat + 7) / 8 ≤ s.wbufCap → d.toNat + (ueLen v.toNat + 7) / 8 ≤ s.cfg.hmemBytes →
    ∃ s1 s2 s3 s4 s5, exec .wPutUe { s with arg0 := v } = .next s1 ∧ exec .wAlignZero s1 = .next s2 ∧
      exec .wCopyOut { s2 with arg0 := d } = .next s3 ∧
      exec .rInit { s3 with arg0 := d, arg1 := BitVec.ofNat 32 (8 * s3.bw.wcnt) } = .next s4 ∧
      exec .rGetUe s4 = .next s5 ∧ s5.result = v ∧ s5.status = 0 ∧ s5.br.cur.toNat = ueLen v.toNat

/-- The same for W_PUT_SE k and R_GET_SE, for every k from -(2^31 - 1) to 2^31 - 1. The spec marks 42_exp_golomb.md R206 as
derived. -/
def Obligations.ExpGolombIdentitySigned : Prop :=
  ∀ (s : State) (k d : Word), BlockInv s → s.bw.wcnt = 0 → s.bw.pb = 0 → k ≠ 0x80000000 →
    (ueLen (zigzag k.toInt).toNat + 7) / 8 ≤ s.wbufCap →
    d.toNat + (ueLen (zigzag k.toInt).toNat + 7) / 8 ≤ s.cfg.hmemBytes →
    ∃ s1 s2 s3 s4 s5, exec .wPutSe { s with arg0 := k } = .next s1 ∧ exec .wAlignZero s1 = .next s2 ∧
      exec .wCopyOut { s2 with arg0 := d } = .next s3 ∧
      exec .rInit { s3 with arg0 := d, arg1 := BitVec.ofNat 32 (8 * s3.bw.wcnt) } = .next s4 ∧
      exec .rGetSe s4 = .next s5 ∧ s5.result = k ∧ s5.status = 0 ∧
      s5.br.cur.toNat = ueLen (zigzag k.toInt).toNat

/-- Any sequence of fixed, ue and se fields put into an empty writer with room, aligned, copied out and attached, reads back
field by field in the order written, each with OK. The spec marks 41_bit_reader.md R178 as derived. -/
def Obligations.WrittenFieldsReadBack : Prop :=
  ∀ (s : State) (fields : List Field) (d : Word), BlockInv s → s.bw.wcnt = 0 → s.bw.pb = 0 →
    (∀ f ∈ fields, f.legal = true) →
    ((fields.map Field.len).sum + 7) / 8 ≤ s.wbufCap →
    d.toNat + ((fields.map Field.len).sum + 7) / 8 ≤ s.cfg.hmemBytes →
    ∃ s1 s2 s3 s4, putFields fields s = .next s1 ∧ exec .wAlignZero s1 = .next s2 ∧
      exec .wCopyOut { s2 with arg0 := d } = .next s3 ∧
      exec .rInit { s3 with arg0 := d, arg1 := BitVec.ofNat 32 (8 * s3.bw.wcnt) } = .next s4 ∧
      getFields fields s4 = some (fields.map Field.value)
end

