-- ==== Sys2Proof/Laws/Codes.lean ====
section
/-! SUPPORT. The bit strings of 00_scope.md R7 and the codes built from them (30_encoding.md part B). -/

namespace Sys2Proof.Machine

@[simp] theorem bin_zero_width (v : Nat) : bin 0 v = [] := rfl

theorem bin_succ (w v : Nat) : bin (w + 1) v = v.testBit w :: bin w v := rfl

@[simp] theorem bin_length (w v : Nat) : (bin w v).length = w := by
  induction w with
  | zero => rfl
  | succ w ih => simp [bin_succ, ih]

/-- Bit i of the string is bit w - 1 - i of the number. -/
theorem bin_getElem (w v i : Nat) (h : i < (bin w v).length) : (bin w v)[i] = v.testBit (w - 1 - i) := by
  induction w generalizing i with
  | zero => simp at h
  | succ w ih =>
    cases i with
    | zero => simp [bin_succ]
    | succ i =>
      simp only [bin_succ, List.getElem_cons_succ]
      rw [ih]; congr 1; omega

/-- Only the bits below the width count. -/
theorem bin_congr {w u v : Nat} (h : ∀ i < w, u.testBit i = v.testBit i) : bin w u = bin w v := by
  induction w with
  | zero => rfl
  | succ w ih => rw [bin_succ, bin_succ, h w (by omega), ih fun i hi => h i (by omega)]

theorem bin_mod (w v : Nat) : bin w (v % 2 ^ w) = bin w v :=
  bin_congr fun i hi => by simp [Nat.testBit_mod_two_pow, hi]

/-- A string splits into the string of the high bits and the string of the low bits. -/
theorem bin_add (m n v : Nat) : bin (m + n) v = bin m (v / 2 ^ n) ++ bin n v := by
  induction m with
  | zero => simp
  | succ m ih =>
    rw [show m + 1 + n = (m + n) + 1 by omega, bin_succ, bin_succ, List.cons_append, ← ih]
    simp [Nat.testBit_div_two_pow, Nat.add_comm]

/-- A number below 2^n has only zeros above its n low bits. -/
theorem bin_add_of_lt {m n v : Nat} (h : v < 2 ^ n) : bin (m + n) v = bin m 0 ++ bin n v := by
  rw [bin_add, Nat.div_eq_of_lt h]

/-- Appending one bit to a string doubles the number and adds the bit. -/
theorem bin_shift (w v : Nat) (b : Bool) : bin (w + 1) (2 * v + b.toNat) = bin w v ++ [b] := by
  have hb : b.toNat < 2 := b.toNat_lt
  rw [bin_add w 1, show (2 * v + b.toNat) / 2 ^ 1 = v by omega]
  congr 1
  cases b <;> simp [bin]

/-- A string tells its number apart from every other number of its width. -/
theorem bin_inj {w u v : Nat} (hu : u < 2 ^ w) (hv : v < 2 ^ w) (h : bin w u = bin w v) : u = v := by
  refine Nat.eq_of_testBit_eq fun i => ?_
  by_cases hi : i < w
  · have := congrArg (fun l => l[w - 1 - i]?) h
    simp only [List.getElem?_eq_getElem, bin_length, show w - 1 - i < w by omega, bin_getElem, Option.some.injEq] at this
    rwa [show w - 1 - (w - 1 - i) = i by omega] at this
  · have hpow : 2 ^ w ≤ 2 ^ i := Nat.pow_le_pow_right (by omega) (by omega)
    rw [Nat.testBit_lt_two_pow (by omega), Nat.testBit_lt_two_pow (by omega)]

theorem ueL_spec (v : Nat) : 2 ^ ueL v ≤ v + 1 ∧ v + 1 < 2 ^ (ueL v + 1) :=
  ⟨Nat.log2_self_le (by omega), Nat.lt_log2_self⟩

/-- L(v) is at most 31 for a value that has a code (42_exp_golomb.md R200). -/
theorem ueL_le {v : Nat} (h : v ≤ ueMax) : ueL v ≤ 31 := by
  have := (ueL_spec v).1
  by_contra hc
  have : 2 ^ 32 ≤ 2 ^ ueL v := Nat.pow_le_pow_right (by omega) (by omega)
  unfold ueMax at h
  omega

/-- ue(v) is v + 1 in UeLen(v) bits (30_encoding.md R101). -/
theorem ueBits_eq_bin (v : Nat) : ueBits v = bin (ueLen v) (v + 1) := by
  unfold ueBits ueLen
  rw [show 2 * ueL v + 1 = ueL v + (ueL v + 1) by omega, bin_add_of_lt (ueL_spec v).2]

@[simp] theorem ueBits_length (v : Nat) : (ueBits v).length = ueLen v := by rw [ueBits_eq_bin, bin_length]

@[simp] theorem sizeBytes_length (n : Nat) : (sizeBytes n).length = n / 255 + 1 := by simp [sizeBytes]

@[simp] theorem nalHdr_length (p : Config.Params) (f : Family) : (nalHdr p f).length = nalHdrLen f := by cases f <;> rfl

end Sys2Proof.Machine
end

