-- ==== Sys2Proof/Laws/Memory.lean ====
section
/-! SUPPORT. What the operations on a memory do: a byte read after a write, the bytes a write leaves alone, and the
canonical form, which every operation keeps. -/

namespace Sys2Proof.Machine

@[simp] theorem cellRead_nil (a : Nat) : cellRead [] a = none := rfl

@[simp] theorem cellRead_cellWrite_same (m : Memory) (a : Nat) (v : Byte) : cellRead (cellWrite m a v) a = some v := by
  induction m with
  | nil => simp [cellWrite, cellRead]
  | cons c m ih =>
    obtain ⟨b, u⟩ := c
    unfold cellWrite
    split
    · simp [cellRead]
    · split
      · simp [cellRead]
      · simp [cellRead, *]

theorem cellRead_cellWrite_other (m : Memory) {a b : Nat} (v : Byte) (h : b ≠ a) :
    cellRead (cellWrite m a v) b = cellRead m b := by
  induction m with
  | nil => simp [cellWrite, cellRead, h]
  | cons c m ih =>
    obtain ⟨d, u⟩ := c
    unfold cellWrite
    split
    · simp [cellRead, h]
    · split
      · subst_vars; simp [cellRead, h]
      · simp [cellRead, ih]

/-- A byte after a write: the written byte at its address, the old one elsewhere. -/
theorem cellRead_cellWrite (m : Memory) (a b : Nat) (v : Byte) :
    cellRead (cellWrite m a v) b = if b = a then some v else cellRead m b := by
  split
  · subst_vars; simp
  · exact cellRead_cellWrite_other m v ‹_›

/-- A byte after writing a run of bytes from address `a` up. -/
theorem cellRead_cellWriteList (m : Memory) (a b : Nat) (l : List Byte) :
    cellRead (cellWriteList m a l) b = if a ≤ b then (l[b - a]?).or (cellRead m b) else cellRead m b := by
  induction l generalizing m a with
  | nil => simp [cellWriteList]
  | cons v l ih =>
    rw [cellWriteList, ih, cellRead_cellWrite]
    by_cases h : b = a
    · subst h; simp
    · by_cases h' : a ≤ b
      · have : b - a = b - (a + 1) + 1 := by omega
        simp [h, h', show a + 1 ≤ b by omega, this]
      · simp [h, h', show ¬ a + 1 ≤ b by omega]

theorem mem_cellWrite {m : Memory} {a : Nat} {v : Byte} {c : Host.Cell} (h : c ∈ cellWrite m a v) :
    c = (a, v) ∨ c ∈ m := by
  induction m with
  | nil => simpa [cellWrite] using h
  | cons d m ih =>
    obtain ⟨b, u⟩ := d
    unfold cellWrite at h
    split at h
    · simpa using h
    · split at h
      · rcases List.mem_cons.mp h with h | h <;> simp [h]
      · rcases List.mem_cons.mp h with h | h
        · simp [h]
        · rcases ih h with h | h <;> simp [h]

/-- Writing a byte keeps the canonical form. -/
theorem cellWrite_wf {m : Memory} (a : Nat) (v : Byte) (h : m.wf) : (cellWrite m a v).wf := by
  induction m with
  | nil => simp [cellWrite, Memory.wf]
  | cons c m ih =>
    obtain ⟨b, u⟩ := c
    have hm := List.pairwise_cons.mp h
    unfold cellWrite
    split
    · refine List.pairwise_cons.mpr ⟨fun d hd => ?_, h⟩
      rcases List.mem_cons.mp hd with rfl | hd
      · assumption
      · exact Nat.lt_trans ‹_› (hm.1 d hd)
    · split
      · subst_vars; exact List.pairwise_cons.mpr ⟨hm.1, hm.2⟩
      · refine List.pairwise_cons.mpr ⟨fun d hd => ?_, ih hm.2⟩
        rcases mem_cellWrite hd with rfl | hd
        · show b < a; omega
        · exact hm.1 d hd

/-- Writing a run of bytes keeps the canonical form. -/
theorem cellWriteList_wf {m : Memory} (a : Nat) (l : List Byte) (h : m.wf) : (cellWriteList m a l).wf := by
  induction l generalizing m a with
  | nil => exact h
  | cons v l ih => exact ih (a + 1) (cellWrite_wf a v h)

/-- A bound on the addresses listed survives a write below the bound. -/
theorem cellWrite_inside {m : Memory} {a n : Nat} (v : Byte) (ha : a < n) (h : ∀ c ∈ m, c.1 < n) :
    ∀ c ∈ cellWrite m a v, c.1 < n := by
  intro c hc
  rcases mem_cellWrite hc with rfl | hc
  · exact ha
  · exact h c hc

theorem cellWriteList_inside {m : Memory} {a n : Nat} {l : List Byte} (ha : a + l.length ≤ n)
    (h : ∀ c ∈ m, c.1 < n) : ∀ c ∈ cellWriteList m a l, c.1 < n := by
  induction l generalizing m a with
  | nil => exact h
  | cons v l ih =>
    simp only [List.length_cons] at ha
    exact ih (by omega) (cellWrite_inside v (by omega) h)

/-- Two memories in canonical form that list the same bytes are the same data. -/
theorem memory_ext {m n : Memory} (hm : m.wf) (hn : n.wf) (h : ∀ a, cellRead m a = cellRead n a) : m = n := by
  induction m generalizing n with
  | nil =>
    cases n with
    | nil => rfl
    | cons c n => have := h c.1; simp [cellRead] at this
  | cons c m ih =>
    have hc := List.pairwise_cons.mp hm
    have absent : ∀ {b : Nat} {l : Memory}, (∀ d ∈ l, b < d.1) → cellRead l b = none := by
      intro b l hl
      induction l with
      | nil => rfl
      | cons d l ihl =>
        have hne : b ≠ d.1 := (hl d (by simp)).ne
        simp [cellRead, hne, ihl fun e he => hl e (by simp [he])]
    cases n with
    | nil => have := h c.1; simp [cellRead] at this
    | cons d n =>
      have hd := List.pairwise_cons.mp hn
      have hcd : c.1 = d.1 := by
        by_contra hne
        rcases Nat.lt_or_gt_of_ne hne with hlt | hlt
        · have h1 := h c.1
          rw [absent (l := d :: n) (fun e he => by
            rcases List.mem_cons.mp he with rfl | he
            · exact hlt
            · exact Nat.lt_trans hlt (hd.1 e he))] at h1
          simp [cellRead] at h1
        · have h1 := h d.1
          rw [absent (l := c :: m) (fun e he => by
            rcases List.mem_cons.mp he with rfl | he
            · exact hlt
            · exact Nat.lt_trans hlt (hc.1 e he))] at h1
          simp [cellRead] at h1
      obtain ⟨a, v⟩ := c
      obtain ⟨b, u⟩ := d
      subst hcd
      have hv : v = u := by simpa [cellRead] using h a
      subst hv
      congr 1
      refine ih hc.2 hd.2 fun x => ?_
      by_cases hx : x = a
      · subst hx; rw [absent hc.1, absent hd.1]
      · simpa [cellRead, hx] using h x

end Sys2Proof.Machine
end

