-- ==== Sys2Proof/Laws/Ops.lean ====
section
/-! SUPPORT. For each shared operation, once, what it can do. -/

namespace Sys2Proof.Machine

/-! Outcomes. -/

theorem raise_eq (e : ErrCode) (s : State) :
    raise e s = .next { s with status := statusWord e.code, result := 0, diagCount := s.diagCount + 1 } := rfl

theorem complete_eq (c : DoneCode) (r : Word) (s : State) :
    complete c r s = .next { s with status := statusWord c.code, result := r } := rfl

@[simp] theorem code_of_statusWord (b : Byte) : (statusWord b).extractLsb' 0 8 = b := by
  revert b; decide

/-! The writer. -/

theorem shiftIn_toNat {sr : Byte} {n : Nat} (b : Bool) (hn : n ≤ 7) (h : sr.toNat < 2 ^ n) :
    (shiftIn sr b).toNat = 2 * sr.toNat + b.toNat := by
  have hp : 2 ^ n ≤ 2 ^ 7 := Nat.pow_le_pow_right (by omega) hn
  have hb : b.toNat < 2 := b.toNat_lt
  unfold shiftIn
  rw [BitVec.toNat_setWidth, BitVec.toNat_concat, Nat.mod_eq_of_lt (by omega)]
  omega

/-- The committed bytes depend on the listed bytes below WCNT alone. -/
theorem committed_succ (bw : BitWriter) (v : Byte) :
    BitWriter.committed { sr := 0, pb := 0, wcnt := bw.wcnt + 1, wbuf := cellWrite bw.wbuf bw.wcnt v }
      = bw.committed ++ [v] := by
  unfold BitWriter.committed
  rw [List.range_succ, List.map_append]
  congr 1
  · refine List.map_congr_left fun i hi => ?_
    have : i < bw.wcnt := List.mem_range.mp hi
    simp [BitWriter.byte, cellRead_cellWrite_other _ _ (show i ≠ bw.wcnt by omega)]
  · simp [BitWriter.byte]

/-- EmitBit appends one bit to the stream (40_bit_writer.md R130). -/
theorem emitBit_stream {bw : BitWriter} (b : Bool) (hp : bw.pb ≤ 7) (hs : bw.sr.toNat < 2 ^ bw.pb) :
    (emitBit b bw).stream = bw.stream ++ [b] := by
  unfold emitBit BitWriter.stream
  split
  · have h7 : bw.pb = 7 := by omega
    have hsr := shiftIn_toNat b hp hs
    rw [committed_succ, List.flatMap_append]
    simp [hsr, h7, bin_shift]
  · have hsr := shiftIn_toNat b hp hs
    simp only [hsr, bin_shift, ← List.append_assoc]
    rfl

/-- The pending bits stay a legal shift register (10_state.md R34). -/
theorem emitBit_pending {bw : BitWriter} (b : Bool) (hp : bw.pb ≤ 7) (hs : bw.sr.toNat < 2 ^ bw.pb) :
    (emitBit b bw).pb ≤ 7 ∧ (emitBit b bw).sr.toNat < 2 ^ (emitBit b bw).pb := by
  unfold emitBit
  split
  · simp
  · have hsr := shiftIn_toNat b hp hs
    have hb : b.toNat < 2 := b.toNat_lt
    refine ⟨by show bw.pb + 1 ≤ 7; omega, ?_⟩
    show (shiftIn bw.sr b).toNat < 2 ^ (bw.pb + 1)
    rw [hsr, Nat.pow_succ]
    omega

/-- EmitBit adds one to TELL. -/
theorem emitBit_tell (b : Bool) (bw : BitWriter) : (emitBit b bw).tell = bw.tell + 1 := by
  unfold emitBit BitWriter.tell
  split
  · show 8 * (bw.wcnt + 1) + 0 = _; omega
  · show 8 * bw.wcnt + (bw.pb + 1) = _; omega

/-- EmitBit leaves the committed bytes alone and never lowers WCNT (40_bit_writer.md R141). -/
theorem emitBit_keeps (b : Bool) (bw : BitWriter) :
    bw.wcnt ≤ (emitBit b bw).wcnt ∧ ∀ i < bw.wcnt, (emitBit b bw).byte i = bw.byte i := by
  unfold emitBit
  split
  · refine ⟨by show bw.wcnt ≤ bw.wcnt + 1; omega, fun i hi => ?_⟩
    simp [BitWriter.byte, cellRead_cellWrite_other _ _ (show i ≠ bw.wcnt by omega)]
  · exact ⟨le_refl _, fun i _ => rfl⟩

/-- EmitBit keeps the writer's invariants where its byte fits. -/
theorem emitBit_ok {cap : Nat} {bw : BitWriter} (b : Bool) (h : bw.Ok cap) (hf : bw.wcnt + (bw.pb + 1) / 8 ≤ cap) :
    (emitBit b bw).Ok cap := by
  have hp := emitBit_pending b h.pb_le h.sr_lt
  refine ⟨hp.1, hp.2, ?_, ?_, ?_, ?_⟩ <;> unfold emitBit <;> split
  · show bw.wcnt + 1 ≤ cap; omega
  · exact h.wcnt_le
  · exact cellWrite_wf _ _ h.wbuf_wf
  · exact h.wbuf_wf
  · exact cellWrite_inside _ (by omega) h.wbuf_inside
  · exact h.wbuf_inside
  · intro i hi
    simp only [cellRead_cellWrite]
    split
    · rfl
    · have : i < bw.wcnt + 1 := hi
      exact h.wbuf_held i (by omega)
  · exact h.wbuf_held

/-- EmitBits(v, w) appends bin_w(v) to the stream (40_bit_writer.md R130). -/
theorem emitBits_stream (v w : Nat) {bw : BitWriter} (hp : bw.pb ≤ 7) (hs : bw.sr.toNat < 2 ^ bw.pb) :
    (emitBits v w bw).stream = bw.stream ++ bin w v := by
  induction w generalizing bw with
  | zero => simp [emitBits]
  | succ w ih =>
    have hk := emitBit_pending (v.testBit w) hp hs
    rw [emitBits, ih hk.1 hk.2, emitBit_stream _ hp hs, bin_succ, List.append_assoc]
    rfl

theorem emitBits_pending (v w : Nat) {bw : BitWriter} (hp : bw.pb ≤ 7) (hs : bw.sr.toNat < 2 ^ bw.pb) :
    (emitBits v w bw).pb ≤ 7 ∧ (emitBits v w bw).sr.toNat < 2 ^ (emitBits v w bw).pb := by
  induction w generalizing bw with
  | zero => exact ⟨hp, hs⟩
  | succ w ih =>
    have hk := emitBit_pending (v.testBit w) hp hs
    exact ih hk.1 hk.2

/-- EmitBits(v, w) adds w to TELL. -/
theorem emitBits_tell (v w : Nat) (bw : BitWriter) : (emitBits v w bw).tell = bw.tell + w := by
  induction w generalizing bw with
  | zero => rfl
  | succ w ih => rw [emitBits, ih, emitBit_tell]; omega

/-- EmitBits leaves the committed bytes alone and never lowers WCNT (40_bit_writer.md R141). -/
theorem emitBits_keeps (v w : Nat) (bw : BitWriter) :
    bw.wcnt ≤ (emitBits v w bw).wcnt ∧ ∀ i < bw.wcnt, (emitBits v w bw).byte i = bw.byte i := by
  induction w generalizing bw with
  | zero => exact ⟨le_refl _, fun i _ => rfl⟩
  | succ w ih =>
    have h1 := emitBit_keeps (v.testBit w) bw
    have h2 := ih (emitBit (v.testBit w) bw)
    exact ⟨h1.1.trans h2.1, fun i hi => (h2.2 i (lt_of_lt_of_le hi h1.1)).trans (h1.2 i hi)⟩

/-- EmitBits keeps the writer's invariants where its bits fit (40_bit_writer.md R131). -/
theorem emitBits_ok {cap : Nat} (v w : Nat) {bw : BitWriter} (h : bw.Ok cap) (hf : bw.wcnt + (bw.pb + w) / 8 ≤ cap) :
    (emitBits v w bw).Ok cap := by
  induction w generalizing bw with
  | zero => exact h
  | succ w ih =>
    have hk := emitBit_ok (v.testBit w) h (by omega)
    have ht := emitBit_tell (v.testBit w) bw
    have hb := hk.pb_le
    refine ih hk ?_
    unfold BitWriter.tell at ht
    have := h.pb_le
    omega

/-- emitUe appends ue(v), split or not (42_exp_golomb.md R201, R202). -/
theorem emitUe_stream {v : Nat} (hv : v ≤ ueMax) {bw : BitWriter} (hp : bw.pb ≤ 7) (hs : bw.sr.toNat < 2 ^ bw.pb) :
    (emitUe v bw).stream = bw.stream ++ ueBits v := by
  unfold emitUe
  split
  · rw [emitBits_stream _ _ hp hs, ueBits_eq_bin]
  · have hk := emitBits_pending 0 (ueLen v - 32) hp hs
    have hlt : v + 1 < 2 ^ 32 := by unfold ueMax at hv; omega
    rw [emitBits_stream _ _ hk.1 hk.2, emitBits_stream _ _ hp hs, ueBits_eq_bin, List.append_assoc,
      ← bin_add_of_lt hlt, Nat.sub_add_cancel (by omega)]

/-- emitUe adds UeLen(v) to TELL. -/
theorem emitUe_tell (v : Nat) (bw : BitWriter) : (emitUe v bw).tell = bw.tell + ueLen v := by
  unfold emitUe
  split
  · exact emitBits_tell _ _ _
  · rw [emitBits_tell, emitBits_tell]; omega

theorem emitUe_keeps (v : Nat) (bw : BitWriter) :
    bw.wcnt ≤ (emitUe v bw).wcnt ∧ ∀ i < bw.wcnt, (emitUe v bw).byte i = bw.byte i := by
  unfold emitUe
  split
  · exact emitBits_keeps _ _ _
  · have h1 := emitBits_keeps 0 (ueLen v - 32) bw
    have h2 := emitBits_keeps (v + 1) 32 (emitBits 0 (ueLen v - 32) bw)
    exact ⟨h1.1.trans h2.1, fun i hi => (h2.2 i (lt_of_lt_of_le hi h1.1)).trans (h1.2 i hi)⟩

theorem emitUe_ok {cap v : Nat} {bw : BitWriter} (h : bw.Ok cap) (hf : bw.wcnt + (bw.pb + ueLen v) / 8 ≤ cap) :
    (emitUe v bw).Ok cap := by
  unfold emitUe
  split
  · exact emitBits_ok _ _ h hf
  · have h1 : (emitBits 0 (ueLen v - 32) bw).Ok cap := emitBits_ok _ _ h (by omega)
    have ht := emitBits_tell 0 (ueLen v - 32) bw
    have := h1.pb_le
    have := h.pb_le
    unfold BitWriter.tell at ht
    exact emitBits_ok _ _ h1 (by omega)

/-- The whole of what W_PUT_UE and W_PUT_SE can do with a value (42_exp_golomb.md R201). -/
theorem putUe_cases (u : Nat) (s : State) :
    (ueMax < u ∧ putUe u s = raise .ueRange s) ∨
    (u ≤ ueMax ∧ ¬ Fits s (ueLen u) ∧ putUe u s = raise .nomem s) ∨
    (u ≤ ueMax ∧ Fits s (ueLen u) ∧ putUe u s = complete .ok 0 { s with bw := emitUe u s.bw }) := by
  unfold putUe
  by_cases h1 : ueMax < u
  · exact .inl ⟨h1, by simp [h1]⟩
  · by_cases h2 : Fits s (ueLen u)
    · exact .inr (.inr ⟨by omega, h2, by simp [h1, h2]⟩)
    · exact .inr (.inl ⟨by omega, h2, by simp [h1, h2]⟩)

/-! The reader. -/

/-- ReadField is below 2^n (41_bit_reader.md R171). -/
theorem readField_lt (s : State) (p n : Nat) : s.readField p n < 2 ^ n := by
  induction n with
  | zero => simp [State.readField]
  | succ n ih =>
    have hb : (s.rdBit (p + n)).toNat < 2 := Bool.toNat_lt _
    rw [State.readField, Nat.pow_succ]; omega

/-- ReadField's bits are the buffer's, the first most significant (41_bit_reader.md R171). -/
theorem bin_readField (s : State) (p n : Nat) : bin n (s.readField p n) = s.readerBits p n := by
  induction n with
  | zero => rfl
  | succ n ih => rw [State.readField, bin_shift, ih]; simp [State.readerBits, List.range_succ]

@[simp] theorem readerBits_length (s : State) (p n : Nat) : (s.readerBits p n).length = n := by
  simp [State.readerBits]

theorem readerBits_getElem (s : State) (p n i : Nat) (h : i < (s.readerBits p n).length) :
    (s.readerBits p n)[i] = s.rdBit (p + i) := by
  simp [State.readerBits]

/-- The whole of what the scan for the first 1 bit can do (42_exp_golomb.md R204). -/
theorem scanZeros_cases (s : State) (left p z : Nat) :
    ((∀ i < left, p + i < s.br.bits.toNat ∧ s.rdBit (p + i) = false) ∧ s.scanZeros left p z = .guard (p + left)) ∨
    (∃ k < left, (∀ i < k, p + i < s.br.bits.toNat ∧ s.rdBit (p + i) = false) ∧ s.br.bits.toNat ≤ p + k ∧
      s.scanZeros left p z = .overrun) ∨
    (∃ k < left, (∀ i < k, p + i < s.br.bits.toNat ∧ s.rdBit (p + i) = false) ∧ p + k < s.br.bits.toNat ∧
      s.rdBit (p + k) = true ∧ s.scanZeros left p z = .one (p + k + 1) (z + k)) := by
  induction left generalizing p z with
  | zero => exact .inl ⟨fun i hi => absurd hi (by omega), rfl⟩
  | succ left ih =>
    unfold State.scanZeros
    by_cases hend : s.br.bits.toNat ≤ p
    · exact .inr (.inl ⟨0, by omega, fun i hi => absurd hi (by omega), by simpa using hend, by simp [hend]⟩)
    · by_cases hb : s.rdBit p = true
      · exact .inr (.inr ⟨0, by omega, fun i hi => absurd hi (by omega), by simpa using hend, by simpa using hb,
          by simp [hend, hb]⟩)
      · have hb' : s.rdBit p = false := by simpa using hb
        have step : ∀ k, (∀ i < k, p + 1 + i < s.br.bits.toNat ∧ s.rdBit (p + 1 + i) = false) →
            ∀ i < k + 1, p + i < s.br.bits.toNat ∧ s.rdBit (p + i) = false := by
          intro k hk i hi
          cases i with
          | zero => exact ⟨by simpa using hend, by simpa using hb'⟩
          | succ i => have := hk i (by omega); rwa [show p + 1 + i = p + (i + 1) by omega] at this
        rw [if_neg hend, if_neg (by simp [hb'])]
        rcases ih (p + 1) (z + 1) with ⟨h1, h2⟩ | ⟨k, hk, h1, h2, h3⟩ | ⟨k, hk, h1, h2, h3, h4⟩
        · exact .inl ⟨step left h1, by rw [h2]; congr 1; omega⟩
        · exact .inr (.inl ⟨k + 1, by omega, step k h1, by omega, h3⟩)
        · refine .inr (.inr ⟨k + 1, by omega, step k h1, by omega, ?_, ?_⟩)
          · rwa [show p + 1 + k = p + (k + 1) by omega] at h3
          · rw [h4]; congr 1 <;> omega

/-- The whole of what reading a ue code can do (42_exp_golomb.md R204). -/
theorem readUe_cases (s : State) :
    ((∀ i < 32, s.br.cur.toNat + i < s.br.bits.toNat ∧ s.rdBit (s.br.cur.toNat + i) = false) ∧
      s.readUe = .guard (s.br.cur.toNat + 32)) ∨
    (∃ k < 32, (∀ i < k, s.br.cur.toNat + i < s.br.bits.toNat ∧ s.rdBit (s.br.cur.toNat + i) = false) ∧
      s.br.bits.toNat ≤ s.br.cur.toNat + k ∧ s.readUe = .overrun) ∨
    (∃ k < 32, (∀ i < k, s.br.cur.toNat + i < s.br.bits.toNat ∧ s.rdBit (s.br.cur.toNat + i) = false) ∧
      s.br.cur.toNat + k < s.br.bits.toNat ∧ s.rdBit (s.br.cur.toNat + k) = true ∧
      ((s.br.bits.toNat < s.br.cur.toNat + (2 * k + 1) ∧ s.readUe = .overrun) ∨
       (s.br.cur.toNat + (2 * k + 1) ≤ s.br.bits.toNat ∧
        s.readUe = .value (2 ^ k - 1 + s.readField (s.br.cur.toNat + k + 1) k) (s.br.cur.toNat + (2 * k + 1))))) := by
  unfold State.readUe
  rcases scanZeros_cases s 32 s.br.cur.toNat 0 with ⟨h1, h2⟩ | ⟨k, hk, h1, h2, h3⟩ | ⟨k, hk, h1, h2, h3, h4⟩
  · exact .inl ⟨h1, by rw [h2]⟩
  · exact .inr (.inl ⟨k, hk, h1, h2, by rw [h3]⟩)
  · refine .inr (.inr ⟨k, hk, h1, h2, h3, ?_⟩)
    rw [h4]
    by_cases hlen : s.br.bits.toNat < s.br.cur.toNat + (2 * k + 1)
    · exact .inl ⟨hlen, by simp only [Nat.zero_add]; rw [if_pos (by omega)]⟩
    · refine .inr ⟨by omega, ?_⟩
      simp only [Nat.zero_add]
      rw [if_neg (by omega)]
      congr 1; omega

end Sys2Proof.Machine
end

