-- ==== Sys2Proof/Laws/PerInstr.lean ====
section
/-! SUPPORT. Facts about every command as syntax, one lemma per constructor. -/

namespace Sys2Proof.Laws.SelectsItsRow

/-- The word of a command shows the pattern of a row of the opcode map under the row's mask (30_encoding.md R96). -/
def Statement (i : Instr) : Prop := ∃ r ∈ opcodeMap, r.selects (encode i) = true

theorem formatW_put (x : BitVec 6) : ((0x02#8 ++ 0#18 ++ x) &&& 0xFFFFFFC0#32) = 0x02000000#32 := by
  revert x; decide

theorem formatW_get (x : BitVec 6) : ((0x11#8 ++ 0#18 ++ x) &&& 0xFFFFFFC0#32) = 0x11000000#32 := by
  revert x; decide

theorem formatS_sei (b : BitVec 1) (t : Byte) : ((0x20#8 ++ 0#15 ++ b ++ t) &&& 0xFFFFFE00#32) = 0x20000000#32 := by
  revert b t; decide +kernel

theorem wInit : Statement .wInit := ⟨opcodeMap[0], by simp [opcodeMap], by decide⟩
theorem wPut (w : Nat) : Statement (.wPut w) :=
  ⟨opcodeMap[1], by simp [opcodeMap], beq_iff_eq.mpr (formatW_put _)⟩
theorem wPutUe : Statement .wPutUe := ⟨opcodeMap[2], by simp [opcodeMap], by decide⟩
theorem wPutSe : Statement .wPutSe := ⟨opcodeMap[3], by simp [opcodeMap], by decide⟩
theorem wAlignZero : Statement .wAlignZero := ⟨opcodeMap[4], by simp [opcodeMap], by decide⟩
theorem wTell : Statement .wTell := ⟨opcodeMap[5], by simp [opcodeMap], by decide⟩
theorem wCopyOut : Statement .wCopyOut := ⟨opcodeMap[6], by simp [opcodeMap], by decide⟩
theorem wClear : Statement .wClear := ⟨opcodeMap[7], by simp [opcodeMap], by decide⟩
theorem rInit : Statement .rInit := ⟨opcodeMap[8], by simp [opcodeMap], by decide⟩
theorem rGetBits (n : Nat) : Statement (.rGetBits n) :=
  ⟨opcodeMap[9], by simp [opcodeMap], beq_iff_eq.mpr (formatW_get _)⟩
theorem rGetUe : Statement .rGetUe := ⟨opcodeMap[10], by simp [opcodeMap], by decide⟩
theorem rGetSe : Statement .rGetSe := ⟨opcodeMap[11], by simp [opcodeMap], by decide⟩
theorem rSkipBits : Statement .rSkipBits := ⟨opcodeMap[12], by simp [opcodeMap], by decide⟩
theorem rBitsCount : Statement .rBitsCount := ⟨opcodeMap[13], by simp [opcodeMap], by decide⟩
theorem rBitsLeft : Statement .rBitsLeft := ⟨opcodeMap[14], by simp [opcodeMap], by decide⟩
theorem seiBuild (f : Family) (t : Byte) : Statement (.seiBuild f t) :=
  ⟨opcodeMap[15], by simp [opcodeMap], beq_iff_eq.mpr (formatS_sei _ _)⟩

end Sys2Proof.Laws.SelectsItsRow
end

