-- ==== Sys2Proof/Laws/State.lean ====
section
/-! SUPPORT. One lemma per field per named update of the state, each true by definition, so that no proof unfolds a record
update. -/

namespace Sys2Proof.Machine

/-! `State.moveCursor` writes RCUR alone. -/

@[simp] theorem moveCursor_cmd (s : State) (p : Nat) : (s.moveCursor p).cmd = s.cmd := rfl
@[simp] theorem moveCursor_arg0 (s : State) (p : Nat) : (s.moveCursor p).arg0 = s.arg0 := rfl
@[simp] theorem moveCursor_arg1 (s : State) (p : Nat) : (s.moveCursor p).arg1 = s.arg1 := rfl
@[simp] theorem moveCursor_arg2 (s : State) (p : Nat) : (s.moveCursor p).arg2 = s.arg2 := rfl
@[simp] theorem moveCursor_result (s : State) (p : Nat) : (s.moveCursor p).result = s.result := rfl
@[simp] theorem moveCursor_status (s : State) (p : Nat) : (s.moveCursor p).status = s.status := rfl
@[simp] theorem moveCursor_diagCount (s : State) (p : Nat) : (s.moveCursor p).diagCount = s.diagCount := rfl
@[simp] theorem moveCursor_bw (s : State) (p : Nat) : (s.moveCursor p).bw = s.bw := rfl
@[simp] theorem moveCursor_br_base (s : State) (p : Nat) : (s.moveCursor p).br.base = s.br.base := rfl
@[simp] theorem moveCursor_br_bits (s : State) (p : Nat) : (s.moveCursor p).br.bits = s.br.bits := rfl
@[simp] theorem moveCursor_br_cur (s : State) (p : Nat) : (s.moveCursor p).br.cur = zext32 p := rfl
@[simp] theorem moveCursor_hmem (s : State) (p : Nat) : (s.moveCursor p).hmem = s.hmem := rfl
@[simp] theorem moveCursor_inReset (s : State) (p : Nat) : (s.moveCursor p).inReset = s.inReset := rfl
@[simp] theorem moveCursor_cfg (s : State) (p : Nat) : (s.moveCursor p).cfg = s.cfg := rfl
@[simp] theorem moveCursor_hostq (s : State) (p : Nat) : (s.moveCursor p).hostq = s.hostq := rfl
@[simp] theorem moveCursor_hostData (s : State) (p : Nat) : (s.moveCursor p).hostData = s.hostData := rfl

/-! `State.applyReset` gives every register and unit its value of 10_state.md R40. -/

@[simp] theorem applyReset_cmd (s : State) : s.applyReset.cmd = 0 := rfl
@[simp] theorem applyReset_arg0 (s : State) : s.applyReset.arg0 = 0 := rfl
@[simp] theorem applyReset_arg1 (s : State) : s.applyReset.arg1 = 0 := rfl
@[simp] theorem applyReset_arg2 (s : State) : s.applyReset.arg2 = 0 := rfl
@[simp] theorem applyReset_result (s : State) : s.applyReset.result = 0 := rfl
@[simp] theorem applyReset_status (s : State) : s.applyReset.status = 0 := rfl
@[simp] theorem applyReset_diagCount (s : State) : s.applyReset.diagCount = 0 := rfl
@[simp] theorem applyReset_bw (s : State) : s.applyReset.bw = BitWriter.reset := rfl
@[simp] theorem applyReset_br (s : State) : s.applyReset.br = BitReader.reset := rfl
@[simp] theorem applyReset_hmem (s : State) : s.applyReset.hmem = s.hmem := rfl
@[simp] theorem applyReset_inReset (s : State) : s.applyReset.inReset = s.inReset := rfl
@[simp] theorem applyReset_cfg (s : State) : s.applyReset.cfg = s.cfg := rfl
@[simp] theorem applyReset_hostq (s : State) : s.applyReset.hostq = s.hostq := rfl
@[simp] theorem applyReset_hostData (s : State) : s.applyReset.hostData = s.hostData := rfl

/-! `BitWriter.emptied` writes SR, PB and WCNT. -/

@[simp] theorem emptied_sr (bw : BitWriter) : bw.emptied.sr = 0 := rfl
@[simp] theorem emptied_pb (bw : BitWriter) : bw.emptied.pb = 0 := rfl
@[simp] theorem emptied_wcnt (bw : BitWriter) : bw.emptied.wcnt = 0 := rfl
@[simp] theorem emptied_wbuf (bw : BitWriter) : bw.emptied.wbuf = bw.wbuf := rfl

/-! `State.withCommand` writes the reset line and the host's list. -/

@[simp] theorem withCommand_cmd (s : State) (c : Word) : (s.withCommand c).cmd = s.cmd := rfl
@[simp] theorem withCommand_arg0 (s : State) (c : Word) : (s.withCommand c).arg0 = s.arg0 := rfl
@[simp] theorem withCommand_arg1 (s : State) (c : Word) : (s.withCommand c).arg1 = s.arg1 := rfl
@[simp] theorem withCommand_arg2 (s : State) (c : Word) : (s.withCommand c).arg2 = s.arg2 := rfl
@[simp] theorem withCommand_result (s : State) (c : Word) : (s.withCommand c).result = s.result := rfl
@[simp] theorem withCommand_status (s : State) (c : Word) : (s.withCommand c).status = s.status := rfl
@[simp] theorem withCommand_diagCount (s : State) (c : Word) : (s.withCommand c).diagCount = s.diagCount := rfl
@[simp] theorem withCommand_bw (s : State) (c : Word) : (s.withCommand c).bw = s.bw := rfl
@[simp] theorem withCommand_br (s : State) (c : Word) : (s.withCommand c).br = s.br := rfl
@[simp] theorem withCommand_hmem (s : State) (c : Word) : (s.withCommand c).hmem = s.hmem := rfl
@[simp] theorem withCommand_inReset (s : State) (c : Word) : (s.withCommand c).inReset = false := rfl
@[simp] theorem withCommand_cfg (s : State) (c : Word) : (s.withCommand c).cfg = s.cfg := rfl
@[simp] theorem withCommand_hostq (s : State) (c : Word) : (s.withCommand c).hostq = issue s.cfg c :: s.hostq := rfl
@[simp] theorem withCommand_hostData (s : State) (c : Word) : (s.withCommand c).hostData = s.hostData := rfl

/-! `State.writeReg` writes one of CMD and ARG0 to ARG2, or nothing (10_state.md R27). -/

@[simp] theorem writeReg_cmd_reg (s : State) (v : Word) : s.writeReg .cmd v = { s with cmd := v } := rfl
@[simp] theorem writeReg_arg0_reg (s : State) (v : Word) : s.writeReg .arg0 v = { s with arg0 := v } := rfl
@[simp] theorem writeReg_arg1_reg (s : State) (v : Word) : s.writeReg .arg1 v = { s with arg1 := v } := rfl
@[simp] theorem writeReg_arg2_reg (s : State) (v : Word) : s.writeReg .arg2 v = { s with arg2 := v } := rfl
@[simp] theorem writeReg_result_reg (s : State) (v : Word) : s.writeReg .result v = s := rfl
@[simp] theorem writeReg_status_reg (s : State) (v : Word) : s.writeReg .status v = s := rfl
@[simp] theorem writeReg_diagCount_reg (s : State) (v : Word) : s.writeReg .diagCount v = s := rfl
@[simp] theorem writeReg_reserved_reg (s : State) (v : Word) : s.writeReg .reserved v = s := rfl
@[simp] theorem writeReg_result (s : State) (r : Reg) (v : Word) : (s.writeReg r v).result = s.result := by
  cases r <;> rfl
@[simp] theorem writeReg_status (s : State) (r : Reg) (v : Word) : (s.writeReg r v).status = s.status := by
  cases r <;> rfl
@[simp] theorem writeReg_diagCount (s : State) (r : Reg) (v : Word) : (s.writeReg r v).diagCount = s.diagCount := by
  cases r <;> rfl
@[simp] theorem writeReg_bw (s : State) (r : Reg) (v : Word) : (s.writeReg r v).bw = s.bw := by cases r <;> rfl
@[simp] theorem writeReg_br (s : State) (r : Reg) (v : Word) : (s.writeReg r v).br = s.br := by cases r <;> rfl
@[simp] theorem writeReg_hmem (s : State) (r : Reg) (v : Word) : (s.writeReg r v).hmem = s.hmem := by cases r <;> rfl
@[simp] theorem writeReg_inReset (s : State) (r : Reg) (v : Word) : (s.writeReg r v).inReset = s.inReset := by
  cases r <;> rfl
@[simp] theorem writeReg_cfg (s : State) (r : Reg) (v : Word) : (s.writeReg r v).cfg = s.cfg := by cases r <;> rfl
@[simp] theorem writeReg_hostq (s : State) (r : Reg) (v : Word) : (s.writeReg r v).hostq = s.hostq := by
  cases r <;> rfl
@[simp] theorem writeReg_hostData (s : State) (r : Reg) (v : Word) : (s.writeReg r v).hostData = s.hostData := by
  cases r <;> rfl

end Sys2Proof.Machine
end

