-- ==== Sys2Proof/Tests/Slice0.lean ====
section
/-! SUPPORT. Tests: vectors of 95_test_vectors.md worked out there from the rules, words written out from the formats of
30_encoding.md, and for every statement with hypotheses a state and operands that meet them. -/

namespace Sys2Proof.Tests

set_option Elab.async false

open Sys2Proof Sys2Proof.Machine

/-! Well-formedness. -/

theorem test_put_width_64_is_ill_formed : (Instr.wPut 64).wf = false := by decide
theorem test_get_width_64_is_ill_formed : (Instr.rGetBits 64).wf = false := by decide
theorem test_assembler_refuses_width_64 : (AsmLine.wPut 1 64).commands = none ∧ (AsmLine.rGetBits 64).commands = none := by
  decide

/-! Decoding: words written out from formats N, W and S, opcode then fields (30_encoding.md R91 to R93, R96). -/

theorem test_decode_wInit : decode (0b00000001#8 ++ 0#24) = .command .wInit := by decide
theorem test_decode_wPut : decode (0b00000010#8 ++ 0#18 ++ 0b100001#6) = .command (.wPut 33) := by decide
theorem test_decode_wPutUe : decode (0b00000011#8 ++ 0#24) = .command .wPutUe := by decide
theorem test_decode_wPutSe : decode (0b00000100#8 ++ 0#24) = .command .wPutSe := by decide
theorem test_decode_wAlignZero : decode (0b00000101#8 ++ 0#24) = .command .wAlignZero := by decide
theorem test_decode_wTell : decode (0b00000110#8 ++ 0#24) = .command .wTell := by decide
theorem test_decode_wCopyOut : decode (0b00000111#8 ++ 0#24) = .command .wCopyOut := by decide
theorem test_decode_wClear : decode (0b00001000#8 ++ 0#24) = .command .wClear := by decide
theorem test_decode_rInit : decode (0b00010000#8 ++ 0#24) = .command .rInit := by decide
theorem test_decode_rGetBits : decode (0b00010001#8 ++ 0#18 ++ 0b011000#6) = .command (.rGetBits 24) := by decide
theorem test_decode_rGetUe : decode (0b00010010#8 ++ 0#24) = .command .rGetUe := by decide
theorem test_decode_rGetSe : decode (0b00010011#8 ++ 0#24) = .command .rGetSe := by decide
theorem test_decode_rSkipBits : decode (0b00010100#8 ++ 0#24) = .command .rSkipBits := by decide
theorem test_decode_rBitsCount : decode (0b00010101#8 ++ 0#24) = .command .rBitsCount := by decide
theorem test_decode_rBitsLeft : decode (0b00010110#8 ++ 0#24) = .command .rBitsLeft := by decide
theorem test_decode_seiBuild_family_0 :
    decode (0b00100000#8 ++ 0#15 ++ 0b0#1 ++ 0b10001001#8) = .command (.seiBuild .oneByte 137) := by decide
theorem test_decode_seiBuild_family_1 :
    decode (0b00100000#8 ++ 0#15 ++ 0b1#1 ++ 0b10001001#8) = .command (.seiBuild .twoByte 137) := by decide
theorem test_decode_illegal :
    [0x00000000, 0x01000001, 0x02000040, 0x05000001, 0x09000000, 0x17000000, 0x20000204, 0xFF000000].map decode =
    [.illegal .unassignedOpcode, .illegal .reservedBits, .illegal .reservedBits, .illegal .reservedBits,
     .illegal .unassignedOpcode, .illegal .unassignedOpcode, .illegal .reservedBits, .illegal .unassignedOpcode] := by decide

/-! Helpers. -/

/-- A few fields of the next state, if there is one. -/
def see {α : Type} (o : Host.Outcome State Fault Refusal) (f : State → α) : Option α := (nextOf o).map f

/-- A block whose ARG registers hold these words. -/
def withArgs (a b c : Word) (s : State) : State := { s with arg0 := a, arg1 := b, arg2 := c }

/-- A block with a writer of two bytes, HMEM of 64, frames up to 16 bytes and the window at 0x40; one byte A4 and three
bits 101 written; attached at bit 1 of 28 bits A6 4D E0 0. -/
def demo : State where
  cmd := 0
  arg0 := 3
  arg1 := 4
  arg2 := 5
  result := 7
  status := 0x14
  diagCount := 0xFFFFFFFF
  bw := { sr := 5, pb := 3, wcnt := 1, wbuf := [(0, 0xA4)] }
  br := { base := 0x10, bits := 28, cur := 1 }
  hmem := [(0x10, 0xA6), (0x11, 0x4D), (0x12, 0xE0), (0x13, 0x00), (0x20, 0x01), (0x21, 0x02)]
  inReset := false
  cfg := { Config.defaults with chunkBytes := 2, nChunks := 1, hmemBytes := 64, seiMaxBytes := 16, regBase := 0x40 }
  hostq := []
  hostData := 0

/-- The same block with an empty writer of the default size. -/
def roomy : State :=
  { demo with
    bw := { sr := 0, pb := 0, wcnt := 0, wbuf := [] },
    cfg := { demo.cfg with chunkBytes := 4096, nChunks := 16 } }

/-- The same block attached to the 64 bits of bytes written from address 0. -/
def reading (bytes : List Byte) (nbits : Word) : State :=
  { demo with hmem := cellWriteList [] 0 bytes, br := { base := 0, bits := nbits, cur := 0 } }

/-- The same block with the host about to do one thing. -/
def demoDoing (a : HostAction) : State := { demo with hostq := [a] }

/-! One step of each command (95_test_vectors.md, Part 2). -/

theorem test_wInit_V_W14 : see (exec .wInit demo) (fun t => (t.status, t.bw.sr, t.bw.pb, t.bw.wcnt)) =
    some (0, 0, 0, 0) := by decide +kernel
theorem test_wPut_V_W5 : see (exec (.wPut 32) (withArgs 0xDEADBEEF 0 0 roomy))
    (fun t => (t.status, t.bw)) =
    some (0, { sr := 0, pb := 0, wcnt := 4, wbuf := [(0, 0xDE), (1, 0xAD), (2, 0xBE), (3, 0xEF)] }) := by decide +kernel
theorem test_wPut_V_W6 : see (exec (.wPut 33) (withArgs 1 0 0 demo)) (fun t => (t.status, t.diagCount, t.bw == demo.bw)) =
    some (0x11, 0, true) := by decide +kernel
theorem test_wPutUe_V_E1 : see (exec .wPutUe (withArgs 65535 0 0 roomy)) (fun t => (t.status, t.bw)) =
    some (0, { sr := 0, pb := 1, wcnt := 4, wbuf := [(0, 0x00), (1, 0x00), (2, 0x80), (3, 0x00)] }) := by decide +kernel
theorem test_wPutUe_largest : see (exec .wPutUe (withArgs 0xFFFFFFFE 0 0 roomy)) (fun t => (t.status, t.bw)) =
    some (0, { sr := 0x7F, pb := 7, wcnt := 7, wbuf :=
      [(0, 0x00), (1, 0x00), (2, 0x00), (3, 0x01), (4, 0xFF), (5, 0xFF), (6, 0xFF)] }) := by decide +kernel
theorem test_wPutSe_V_E2 : see (exec .wPutSe (withArgs 0xFFFFFFFD 0 0 roomy)) (fun t => (t.status, t.bw)) =
    some (0, { sr := 0b00111, pb := 5, wcnt := 0, wbuf := [] }) := by decide +kernel
theorem test_wPutSe_least : see (exec .wPutSe (withArgs 0x80000000 0 0 roomy)) (fun t => (t.status, t.bw == roomy.bw)) =
    some (0x12, true) := by decide +kernel
theorem test_wAlignZero_V_W7 :
    see (exec .wAlignZero { roomy with bw := { sr := 0b101011, pb := 6, wcnt := 0, wbuf := [] } }) (fun t => t.bw) =
    some { sr := 0, pb := 0, wcnt := 1, wbuf := [(0, 0xAC)] } := by decide +kernel
theorem test_wTell_V_W9 : see (exec .wTell { demo with bw := { demo.bw with pb := 6 } }) (fun t => (t.status, t.result)) =
    some (0, 14) := by decide +kernel
theorem test_wCopyOut_V_W11 : see (exec .wCopyOut (withArgs 0x11 0 0 demo)) (fun t => (t.result, t.bw == demo.bw, t.hmem)) =
    some (1, true, [(0x10, 0xA6), (0x11, 0xA4), (0x12, 0xE0), (0x13, 0x00), (0x20, 0x01), (0x21, 0x02)]) := by
  decide +kernel
theorem test_wCopyOut_V_W13 :
    see (exec .wCopyOut (withArgs 64 0 0 roomy)) (fun t => (t.status, t.hmem == roomy.hmem)) = some (0, true) := by
  decide +kernel
theorem test_wClear_V_W15 : see (exec .wClear demo) (fun t => (t.status, t.bw.pb, t.bw.wcnt)) = some (0, 0, 0) := by
  decide +kernel
theorem test_rInit_V_R6 : see (exec .rInit (withArgs 63 9 0 demo)) (fun t => (t.status, t.br == demo.br)) =
    some (0x15, true) := by decide +kernel
theorem test_rInit_V_R7 : see (exec .rInit (withArgs 64 0 0 demo)) (fun t => (t.status, t.br)) =
    some (0, { base := 64, bits := 0, cur := 0 }) := by decide +kernel
theorem test_rGetBits_V_R1 : see (exec (.rGetBits 32) (reading [0xDE, 0xAD, 0xBE, 0xEF] 32))
    (fun t => (t.status, t.result, t.br.cur)) = some (0, 0xDEADBEEF, 32) := by decide +kernel
theorem test_rGetBits_V_R4 :
    see (exec (.rGetBits 8) { reading [0xDE, 0xAD] 12 with br := { base := 0, bits := 12, cur := 4 } })
    (fun t => (t.status, t.result, t.br.cur)) = some (0, 0xEA, 12) := by decide +kernel
theorem test_rGetUe_V_E3d : see (exec .rGetUe (reading [0x00, 0x00, 0x00, 0x01, 0xFF, 0xFF, 0xFF, 0xFE] 64))
    (fun t => (t.status, t.result, t.br.cur)) = some (0, 0xFFFFFFFE, 63) := by decide +kernel
theorem test_rGetUe_V_E3c : see (exec .rGetUe (reading [0x20] 4)) (fun t => (t.status, t.result, t.br.cur, t.diagCount)) =
    some (0x14, 0, 0, 0) := by decide +kernel
theorem test_rGetSe_V_E3e : see (exec .rGetSe (reading [0x00, 0x00, 0x00, 0x01, 0xFF, 0xFF, 0xFF, 0xFE] 64))
    (fun t => (t.status, t.result, t.br.cur)) = some (0, 0x80000001, 63) := by decide +kernel
theorem test_rGetSe_V_E3k : see (exec .rGetSe (reading [0x00, 0x00, 0x00, 0x00] 32))
    (fun t => (t.status, t.result, t.br.cur, t.diagCount)) = some (0x02, 0, 32, 0xFFFFFFFF) := by decide +kernel
theorem test_rSkipBits_V_R9 : see (exec .rSkipBits (withArgs 0xFFFFFFFF 0 0 demo))
    (fun t => (t.status, t.result, t.br.cur, t.diagCount)) = some (0x01, 0, 1, 0xFFFFFFFF) := by decide +kernel
theorem test_rSkipBits_V_R10 :
    see (exec .rSkipBits { withArgs 8 0 0 demo with br := { demo.br with cur := 20 } }) (fun t => (t.status, t.br.cur)) =
    some (0, 28) := by decide +kernel
theorem test_rBitsCount_V_R11 : see (exec .rBitsCount { demo with br := { demo.br with cur := 20 } })
    (fun t => (t.status, t.result)) = some (0, 20) := by decide +kernel
theorem test_rBitsLeft_V_R11 : see (exec .rBitsLeft { demo with br := { demo.br with cur := 20 } })
    (fun t => (t.status, t.result)) = some (0, 8) := by decide +kernel
theorem test_seiBuild_V_S2 : see (exec (.seiBuild .twoByte 137) { withArgs 0 0 0 demo with hmem := [] })
    (fun t => (t.status, t.result, t.hmem)) =
    some (0, 9, [(0, 0x00), (1, 0x00), (2, 0x00), (3, 0x01), (4, 0x4E), (5, 0x01), (6, 0x89), (7, 0x00), (8, 0x80)]) := by
  decide +kernel
theorem test_seiBuild_V_S12 : see (exec (.seiBuild .oneByte 4) (withArgs 0x10 4 0x08 demo))
    (fun t => (t.status, t.result, t.hmem == demo.hmem)) = some (0x17, 0, true) := by decide +kernel

/-! The step. -/

theorem test_illegal_word_wraps_diagCount :
    see (step (demoDoing (.regWrite 0x40 4 0))) (fun t => (t.cmd, t.status, t.result, t.diagCount)) =
    some (0, 0x10, 0, 0) := by decide +kernel
theorem test_fetched_word_runs :
    see (step (State.reset.withFetchWord 32 0x05000000)) (fun t => (t.cmd, t.status, t.hostq == [])) =
    some (0x05000000, 0, true) := by decide +kernel
theorem test_decodeTableWord : decodeTableWord 32 0x200001FF = some (.seiBuild .twoByte 255) ∧
    decodeTableWord 32 0 = none := by decide

/-! Witnesses: states and operands that meet the hypotheses of each statement that has any. -/

theorem witness_demo_writer : demo.bw.Ok demo.wbufCap where
  pb_le := by decide
  sr_lt := by decide
  wcnt_le := by decide
  wbuf_wf := by decide
  wbuf_inside := by decide
  wbuf_held := by decide

theorem witness_roomy_writer : roomy.bw.Ok roomy.wbufCap where
  pb_le := by decide
  sr_lt := by decide
  wcnt_le := by decide
  wbuf_wf := by decide
  wbuf_inside := by decide
  wbuf_held := by decide

theorem witness_demo_inv : BlockInv demo where
  params := by decide
  writer := witness_demo_writer
  reader := ⟨by decide, by decide⟩
  memory := ⟨by decide, by decide⟩
  status := .inr ⟨.overrun, by decide⟩

theorem witness_roomy_inv : BlockInv roomy where
  params := by decide
  writer := witness_roomy_writer
  reader := ⟨by decide, by decide⟩
  memory := ⟨by decide, by decide⟩
  status := .inr ⟨.overrun, by decide⟩

theorem witness_DecodeOfEncodeIsTheCommand :
    (Instr.wPut 63).wf = true ∧ (Instr.rGetBits 0).wf = true ∧ (Instr.seiBuild .twoByte 255).wf = true := by decide

theorem witness_EncodeOfDecodeIsTheWord :
    decode 0x1100003F = .command (.rGetBits 63) ∧ decode 0x20000100 = .command (.seiBuild .twoByte 0) := by decide

theorem witness_DecodeFollowsTheOpcodeMap :
    (∀ c ∈ [0x01000000, 0x03000000, 0x04000000, 0x05000000, 0x06000000, 0x07000000, 0x08000000, 0x10000000, 0x12000000,
        0x13000000, 0x14000000, 0x15000000, 0x16000000], ∃ i, decode c = .command i ∧ c &&& 0xFFFFFFFF = c) ∧
    (0x0200003F#32 &&& 0xFFFFFFC0 = 0x02000000) ∧ (0x11000000#32 &&& 0xFFFFFFC0 = 0x11000000) ∧
    (0x200000FF#32 &&& 0xFFFFFE00 = 0x20000000 ∧ (0x200000FF#32).getLsbD 8 = false) ∧
    (0x20000100#32 &&& 0xFFFFFE00 = 0x20000000 ∧ (0x20000100#32).getLsbD 8 = true) := by
  refine ⟨?_, by decide, by decide, by decide, by decide⟩
  intro c hc
  simp only [List.mem_cons, List.not_mem_nil, or_false] at hc
  rcases hc with rfl | rfl | rfl | rfl | rfl | rfl | rfl | rfl | rfl | rfl | rfl | rfl | rfl <;>
    exact ⟨_, rfl, by decide⟩

theorem witness_IllegalWordsRaiseErrIllegal :
    [0x00FFFFFF, 0x09000000, 0x0F000000, 0x17000000, 0x1F000000, 0x21000000, 0xFF000000].map decode =
      List.replicate 7 (.illegal .unassignedOpcode) ∧
    [0x02000040, 0x11800000, 0x20000200, 0x20800000, 0x01000001, 0x16800000].map decode =
      List.replicate 6 (.illegal .reservedBits) := by decide

theorem witness_PseudoCommandsStandForTheirCommands :
    (AsmLine.wZeros 32).commands = some [⟨[0], .wPut 32⟩] ∧ (AsmLine.wZeros 33).commands = none := by decide

theorem witness_StepRunsTheDecodedCommand :
    (demoDoing (issue demo.cfg 0x0200000C)).inReset = false ∧
    (demoDoing (issue demo.cfg 0x0200000C)).hostq = .regWrite demo.cfg.regBase 4 0x0200000C :: [] ∧
    decode 0x0200000C = .command (.wPut 12) ∧ decodeTableWord 32 0x0200003F = some (.wPut 63) := by decide

theorem witness_StepTakesErrIllegalOnAnIllegalWord :
    (demoDoing (issue demo.cfg 0)).inReset = false ∧
    (demoDoing (issue demo.cfg 0)).hostq = .regWrite demo.cfg.regBase 4 0 :: [] ∧
    decode 0 = .illegal .unassignedOpcode := by decide

theorem witness_RegisterWindowAccess :
    demo.cfg.wf ∧ demo.inReset = false ∧
    (demoDoing (.regWrite 0x40 4 0)).hostq = .regWrite demo.cfg.regBase 4 0 :: [] ∧
    (∀ offset ∈ [0x04, 0x08, 0x0C, 0x10, 0x3C], 0x04 ≤ offset ∧ offset ≤ 0x3C ∧ offset % 4 = 0 ∧
      (demoDoing (.regWrite (0x40 + offset) 4 9)).hostq = .regWrite (demo.cfg.regBase + offset) 4 9 :: []) ∧
    (∀ offset ∈ [0x00, 0x14, 0x18, 0x1C, 0x3C], offset ≤ 0x3C ∧ offset % 4 = 0 ∧
      (demoDoing (.regRead (0x40 + offset) 4)).hostq = .regRead (demo.cfg.regBase + offset) 4 :: []) ∧
    (demo.cfg.regBase ≤ 0x40 ∧ 0x40 < demo.cfg.regBase + 0x40 ∧ 2 ≠ 4 ∧
      (demoDoing (.regWrite 0x40 2 9)).hostq = .regWrite 0x40 2 9 :: []) ∧
    (demo.cfg.regBase ≤ 0x7F ∧ 0x7F < demo.cfg.regBase + 0x40 ∧ 0x7F % 4 ≠ 0 ∧
      (demoDoing (.regRead 0x7F 4)).hostq = .regRead 0x7F 4 :: []) := by decide

theorem witness_HostReadsAndWritesHmemBytes :
    63 < demo.cfg.hmemBytes ∧ (demoDoing (.memWrite 63 9)).hostq = .memWrite 63 9 :: [] ∧
    0 < demo.cfg.hmemBytes ∧ (demoDoing (.memRead 0)).hostq = .memRead 0 :: [] ∧
    demo.cfg.hmemBytes ≤ 64 ∧ (demoDoing (.memRead 64)).hostq = .memRead 64 :: [] := by decide

theorem witness_HostActionsOutsideTheSpecAreRefused :
    0x3F < demo.cfg.regBase ∧ (demoDoing (.regRead 0x3F 4)).hostq = .regRead 0x3F 4 :: [] ∧
    demo.cfg.regBase + 0x40 ≤ 0x80 ∧ (demoDoing (.regWrite 0x80 4 9)).hostq = .regWrite 0x80 4 9 :: [] ∧
    (demoDoing .duringCommand).hostq = .duringCommand :: [] := by decide

theorem witness_ResetGivesEveryElementItsValue :
    (demoDoing .assertReset).hostq = .assertReset :: [] ∧ (demoDoing .releaseReset).hostq = .releaseReset :: [] ∧
    (∀ offset ∈ [0x00, 0x3C], offset ≤ 0x3C ∧ offset % 4 = 0 ∧
      ({ demo with inReset := true, hostq := [.regWrite (0x40 + offset) 4 9] } : State).inReset = true ∧
      ({ demo with inReset := true, hostq := [.regWrite (0x40 + offset) 4 9] } : State).hostq =
        .regWrite (demo.cfg.regBase + offset) 4 9 :: []) := by decide

theorem witness_AfterResetWriterAndReaderAreEmpty : 1 ≤ 1 ∧ 1 ≤ 32 ∧ 1 ≤ 32 ∧ 32 ≤ 32 := by decide

/-- StepTakesOneActionAndKeepsParameters, EveryStepKeepsTheInvariant, OnlyErrorsAndResetChangeDiagCount. -/
theorem witness_a_step_from_an_invariant_state :
    BlockInv (demoDoing (issue demo.cfg 0x02000021)) ∧
    (∃ t, step (demoDoing (issue demo.cfg 0x02000021)) = .next t) ∧
    ∀ rest, (demoDoing (issue demo.cfg 0x02000021)).hostq ≠ .assertReset :: rest :=
  ⟨⟨witness_demo_inv.params, witness_demo_inv.writer, witness_demo_inv.reader, witness_demo_inv.memory,
    witness_demo_inv.status⟩, ⟨_, rfl⟩, by intro rest h; cases h⟩

/-- EveryCommandLeavesTheBlockReady, ErrorsArePreciseAndCounted, CommandsReportOnlyTheirCodes, CommandsKeepOperandsAndHost,
UnitsKeepToTheirState, CommittedBytesAreNeverRewritten, TellCountsTheBitsAppended and NoCommandReadsStatus: commands that
complete and commands that fail, from a state with a byte written. -/
theorem witness_commands_answer_next_states :
    (∃ t, exec (.wPut 12) demo = .next t) ∧ (∃ t, exec (.wPut 33) demo = .next t) ∧ (∃ t, exec .wTell demo = .next t) ∧
    (∃ t, exec .wClear demo = .next t) ∧ (∃ t, exec .rInit demo = .next t) ∧ (∃ t, exec .rBitsLeft demo = .next t) ∧
    (∃ t, exec (.seiBuild .oneByte 4) demo = .next t) :=
  ⟨⟨_, rfl⟩, ⟨_, rfl⟩, ⟨_, rfl⟩, ⟨_, rfl⟩, ⟨_, rfl⟩, ⟨_, rfl⟩, ⟨_, rfl⟩⟩

theorem witness_CommandsReadOnlyTheirOperands :
    (∃ t, exec .rInit demo = .next t) ∧ Instr.rInit.operandCount = 2 ∧
    (∃ t, exec (.wPut 3) demo = .next t) ∧ (Instr.wPut 3).operandCount = 1 ∧
    (∃ t, exec .rGetUe demo = .next t) ∧ Instr.rGetUe.operandCount = 0 :=
  ⟨⟨_, rfl⟩, rfl, ⟨_, rfl⟩, rfl, ⟨_, rfl⟩, rfl⟩

theorem witness_ReadsStayInsideTheBuffer :
    (Instr.rGetBits 27).isReader = true ∧ (∃ t, exec (.rGetBits 27) demo = .next t) ∧
    ∀ a, demo.br.base.toNat ≤ a → a < demo.br.base.toNat + (demo.br.bits.toNat + 7) / 8 →
      ({ demo with hmem := cellWrite demo.hmem 0x14 0xFF } : State).memRead a = demo.memRead a := by
  refine ⟨rfl, ⟨_, rfl⟩, fun a h1 h2 => ?_⟩
  have h1' : 16 ≤ a := h1
  have h2' : a < 20 := h2
  interval_cases a <;> decide +kernel

theorem witness_PutAppendsTheField :
    demo.bw.Ok demo.wbufCap ∧ 12 ≤ 32 ∧ demo.bw.wcnt + (demo.bw.pb + 12) / 8 ≤ demo.wbufCap ∧
    roomy.bw.Ok roomy.wbufCap ∧ 32 ≤ 32 ∧ roomy.bw.wcnt + (roomy.bw.pb + 32) / 8 ≤ roomy.wbufCap :=
  ⟨witness_demo_writer, by decide, by decide, witness_roomy_writer, by decide, by decide⟩

theorem witness_PutUeAppendsTheCode :
    (withArgs 0xFFFFFFFE 0 0 roomy).bw.Ok (withArgs 0xFFFFFFFE 0 0 roomy).wbufCap ∧
    (withArgs 0xFFFFFFFE 0 0 roomy).arg0.toNat ≤ 2 ^ 32 - 2 ∧
    31 = Nat.log2 ((withArgs 0xFFFFFFFE 0 0 roomy).arg0.toNat + 1) ∧
    (withArgs 0xFFFFFFFE 0 0 roomy).bw.wcnt + ((withArgs 0xFFFFFFFE 0 0 roomy).bw.pb + (2 * 31 + 1)) / 8 ≤
      (withArgs 0xFFFFFFFE 0 0 roomy).wbufCap :=
  ⟨witness_roomy_writer, by decide, by decide +kernel, by decide⟩

theorem witness_PutSeAppendsTheCode :
    (withArgs 0x80000001 0 0 roomy).bw.Ok (withArgs 0x80000001 0 0 roomy).wbufCap ∧
    (withArgs 0x80000001 0 0 roomy).arg0 ≠ 0x80000000 ∧
    ((0xFFFFFFFE : Nat) : Int) = (if 0 < (withArgs 0x80000001 0 0 roomy).arg0.toInt then
      2 * (withArgs 0x80000001 0 0 roomy).arg0.toInt - 1 else -2 * (withArgs 0x80000001 0 0 roomy).arg0.toInt) ∧
    31 = Nat.log2 (0xFFFFFFFE + 1) ∧
    (withArgs 0x80000001 0 0 roomy).bw.wcnt + ((withArgs 0x80000001 0 0 roomy).bw.pb + (2 * 31 + 1)) / 8 ≤
      (withArgs 0x80000001 0 0 roomy).wbufCap :=
  ⟨witness_roomy_writer, by decide, by decide +kernel, by decide +kernel, by decide⟩

theorem witness_AlignZeroPadsToTheByte :
    roomy.bw.pb = 0 ∧ demo.bw.Ok demo.wbufCap ∧ demo.bw.pb ≠ 0 ∧ demo.bw.wcnt < demo.wbufCap :=
  ⟨by decide, witness_demo_writer, by decide, by decide⟩

theorem witness_AligningTwiceIsAligningOnce :
    demo.bw.pb ≤ 7 ∧ (∃ t, exec .wAlignZero demo = .next t ∧ t.status = 0) ∧
    roomy.bw.pb = 0 ∧ ∃ t, exec .wAlignZero roomy = .next t ∧ t.status = 0 :=
  ⟨by decide, ⟨_, rfl, by decide⟩, by decide, ⟨_, rfl, by decide⟩⟩

/-- A full writer, one bit short of another byte: every error of the writer is in reach. -/
def full : State :=
  { demo with bw := { sr := 0x40, pb := 7, wcnt := 2, wbuf := [(0, 0xAB), (1, 0xCD)] } }

/-- The error clauses of PutAppendsTheField, PutUeAppendsTheCode, PutSeAppendsTheCode, AlignZeroPadsToTheByte and
CopyOutWritesTheCommittedBytes. -/
theorem witness_writer_errors :
    32 < 33 ∧ (1 ≤ 32 ∧ full.wbufCap < full.bw.wcnt + (full.bw.pb + 1) / 8) ∧
    (withArgs 0xFFFFFFFF 0 0 full).arg0 = 0xFFFFFFFF ∧
    ((withArgs 0 0 0 full).arg0 ≠ 0xFFFFFFFF ∧ 0 = Nat.log2 ((withArgs 0 0 0 full).arg0.toNat + 1) ∧
      full.wbufCap < full.bw.wcnt + (full.bw.pb + (2 * 0 + 1)) / 8) ∧
    (withArgs 0x80000000 0 0 full).arg0 = 0x80000000 ∧
    ((withArgs 1 0 0 full).arg0 ≠ 0x80000000 ∧
      ((1 : Nat) : Int) = (if 0 < (withArgs 1 0 0 full).arg0.toInt then 2 * (withArgs 1 0 0 full).arg0.toInt - 1
        else -2 * (withArgs 1 0 0 full).arg0.toInt) ∧ 1 = Nat.log2 (1 + 1) ∧
      full.wbufCap < full.bw.wcnt + (full.bw.pb + (2 * 1 + 1)) / 8) ∧
    (full.bw.Ok full.wbufCap ∧ full.bw.pb ≠ 0 ∧ full.bw.wcnt = full.wbufCap) ∧
    full.cfg.hmemBytes < (withArgs 63 0 0 full).arg0.toNat + full.bw.wcnt :=
  ⟨by decide, by decide, by decide, by decide +kernel, by decide, by decide +kernel,
    ⟨⟨by decide, by decide, by decide, by decide, by decide, by decide⟩, by decide, by decide⟩, by decide⟩

theorem witness_TellReturnsTheStreamLength : demo.cfg.wf ∧ demo.bw.Ok demo.wbufCap :=
  ⟨by decide, witness_demo_writer⟩

theorem witness_CopyOutWritesTheCommittedBytes :
    (withArgs 63 0 0 demo).cfg.wf ∧ (withArgs 63 0 0 demo).bw.Ok (withArgs 63 0 0 demo).wbufCap ∧
    (withArgs 63 0 0 demo).arg0.toNat + (withArgs 63 0 0 demo).bw.wcnt ≤ (withArgs 63 0 0 demo).cfg.hmemBytes :=
  ⟨by decide, witness_demo_writer, by decide⟩

theorem witness_CopiedStreamReadsBackBitByBit :
    BlockInv demo ∧ (8 : Word).toNat ≤ 8 * demo.bw.wcnt ∧ (63 : Word).toNat + demo.bw.wcnt ≤ demo.cfg.hmemBytes :=
  ⟨witness_demo_inv, by decide, by decide⟩

/-- The block with one byte committed and nothing pending. -/
def aligned : State := { demo with bw := { sr := 0, pb := 0, wcnt := 1, wbuf := [(0, 0xA4)] } }

theorem witness_TrailingBitsAppendEighty :
    aligned.bw.Ok aligned.wbufCap ∧ aligned.bw.pb = 0 ∧ aligned.bw.wcnt < aligned.wbufCap :=
  ⟨⟨by decide, by decide, by decide, by decide, by decide, by decide⟩, by decide, by decide⟩

theorem witness_ReaderInitAttachesTheBuffer :
    (withArgs 63 8 0 demo).arg0.toNat + ((withArgs 63 8 0 demo).arg1.toNat + 7) / 8 ≤ demo.cfg.hmemBytes ∧
    demo.cfg.hmemBytes < (withArgs 63 9 0 demo).arg0.toNat + ((withArgs 63 9 0 demo).arg1.toNat + 7) / 8 := by decide

theorem witness_GetBitsReadsTheFieldAtEveryPosition :
    (27 ≤ 32 ∧ demo.br.cur.toNat + 27 ≤ demo.br.bits.toNat) ∧ 32 < 33 ∧
    (28 ≤ 32 ∧ demo.br.bits.toNat < demo.br.cur.toNat + 28) := by decide

theorem witness_SkipBitsMovesOrSoftFails :
    (withArgs 27 0 0 demo).br.cur.toNat + (withArgs 27 0 0 demo).arg0.toNat ≤ demo.br.bits.toNat ∧
    demo.br.bits.toNat < (withArgs 28 0 0 demo).br.cur.toNat + (withArgs 28 0 0 demo).arg0.toNat := by decide

theorem witness_BitsCountAndBitsLeft : demo.br.cur.toNat ≤ demo.br.bits.toNat := by decide

/-- GetUeReadsTheCode and GetSeReadsTheCode: the shortest code and the longest. -/
theorem witness_GetUeReadsTheCode :
    ((reading [0x80] 1).br.cur.toNat + (2 * 0 + 1) ≤ (reading [0x80] 1).br.bits.toNat ∧
      (reading [0x80] 1).readerBits (reading [0x80] 1).br.cur.toNat (2 * 0 + 1) =
        List.replicate 0 false ++ [true] ++ bin 0 0) ∧
    (31 ≤ 31 ∧ 2 ^ 31 - 1 < 2 ^ 31 ∧
      (reading [0, 0, 0, 1, 0xFF, 0xFF, 0xFF, 0xFE] 63).br.cur.toNat + (2 * 31 + 1) ≤
        (reading [0, 0, 0, 1, 0xFF, 0xFF, 0xFF, 0xFE] 63).br.bits.toNat ∧
      (reading [0, 0, 0, 1, 0xFF, 0xFF, 0xFF, 0xFE] 63).readerBits
          (reading [0, 0, 0, 1, 0xFF, 0xFF, 0xFF, 0xFE] 63).br.cur.toNat (2 * 31 + 1) =
        List.replicate 31 false ++ [true] ++ bin 31 (2 ^ 31 - 1)) ∧
    ((2 ^ 0 - 1 + 0 : Nat) : Int) = (if (0 : Int) < 0 then 2 * 0 - 1 else -2 * 0) ∧
    ((2 ^ 31 - 1 + (2 ^ 31 - 1) : Nat) : Int) =
      (if (0 : Int) < -(2 ^ 31 - 1) then 2 * -(2 ^ 31 - 1) - 1 else -2 * -(2 ^ 31 - 1)) := by
  refine ⟨by decide +kernel, by decide +kernel, by decide, by decide⟩

/-- The other clauses of GetUeReadsTheCode. -/
theorem witness_GetUe_guard_and_overruns :
    ((reading [0, 0, 0, 0] 32).br.cur.toNat + 32 ≤ (reading [0, 0, 0, 0] 32).br.bits.toNat ∧
      ∀ i < 32, (reading [0, 0, 0, 0] 32).rdBit ((reading [0, 0, 0, 0] 32).br.cur.toNat + i) = false) ∧
    (31 < 32 ∧ (reading [0, 0, 0, 0] 31).br.bits.toNat ≤ (reading [0, 0, 0, 0] 31).br.cur.toNat + 31 ∧
      ∀ i < 31, (reading [0, 0, 0, 0] 31).rdBit ((reading [0, 0, 0, 0] 31).br.cur.toNat + i) = false) ∧
    (2 ≤ 31 ∧ (reading [0x20] 4).br.cur.toNat + 2 < (reading [0x20] 4).br.bits.toNat ∧
      (∀ i < 2, (reading [0x20] 4).rdBit ((reading [0x20] 4).br.cur.toNat + i) = false) ∧
      (reading [0x20] 4).rdBit ((reading [0x20] 4).br.cur.toNat + 2) = true ∧
      (reading [0x20] 4).br.bits.toNat < (reading [0x20] 4).br.cur.toNat + (2 * 2 + 1)) := by decide +kernel

theorem witness_GetSeIsGetUeUnzigzagged :
    ∃ t, exec .rGetUe (reading [0x60] 3) = .next t ∧ t.result = 2 ∧ (0xFFFFFFFF : Word) =
      BitVec.ofInt 32 (if t.result.toNat % 2 = 1 then ((t.result.toNat : Int) + 1) / 2 else -((t.result.toNat : Int) / 2)) :=
  ⟨_, rfl, by decide +kernel, by decide +kernel⟩

theorem witness_ZigzagRoundTrips :
    (-(2 ^ 31 - 1) : Int) ≤ -(2 ^ 31 - 1) ∧ (-(2 ^ 31 - 1) : Int) ≤ 2 ^ 31 - 1 ∧ zz (-(2 ^ 31 - 1)) = 2 ^ 32 - 2 ∧
    izz (2 ^ 32 - 2) = -(2 ^ 31 - 1) ∧ (0 : Nat) ≤ 2 ^ 32 - 2 := by decide

theorem witness_UeCodeLengths : (2 ^ 0 - 1 ≤ 0 ∧ 0 ≤ 2 ^ (0 + 1) - 2) ∧ (2 ^ 31 - 1 ≤ 2 ^ 32 - 2 ∧ 2 ^ 32 - 2 ≤ 2 ^ (31 + 1) - 2) := by
  decide

theorem witness_SeiBuildWritesTheFrame :
    (withArgs 0x20 2 0x16 demo).cfg.wf ∧
    [demo.cfg.nalHdr1B] = (match Family.oneByte with
      | .oneByte => [demo.cfg.nalHdr1B]
      | .twoByte => [demo.cfg.nalHdr2BFirst, demo.cfg.nalHdr2BSecond]) ∧
    10 = (withArgs 0x20 2 0x16 demo).arg1.toNat + (withArgs 0x20 2 0x16 demo).arg1.toNat / 255 +
      [demo.cfg.nalHdr1B].length + 7 ∧ 10 ≤ demo.cfg.seiMaxBytes ∧
    (withArgs 0x20 2 0x16 demo).arg0.toNat + (withArgs 0x20 2 0x16 demo).arg1.toNat ≤ demo.cfg.hmemBytes ∧
    (withArgs 0x20 2 0x16 demo).arg2.toNat + 10 ≤ demo.cfg.hmemBytes ∧
    ((withArgs 0x20 2 0x16 demo).arg1.toNat = 0 ∨
      (withArgs 0x20 2 0x16 demo).arg2.toNat + 10 ≤ (withArgs 0x20 2 0x16 demo).arg0.toNat ∨
      (withArgs 0x20 2 0x16 demo).arg0.toNat + (withArgs 0x20 2 0x16 demo).arg1.toNat ≤
        (withArgs 0x20 2 0x16 demo).arg2.toNat) := by decide

/-- The error clauses of SeiBuildWritesTheFrame: a frame one byte too long; a payload one byte out; an output one byte out; ranges that share one byte. -/
theorem witness_sei_errors :
    (demo.cfg.seiMaxBytes < 17 ∧ 17 = (withArgs 0 9 0 demo).arg1.toNat + (withArgs 0 9 0 demo).arg1.toNat / 255 + 1 + 7) ∧
    (10 = (withArgs 63 2 0 demo).arg1.toNat + (withArgs 63 2 0 demo).arg1.toNat / 255 + 1 + 7 ∧ 10 ≤ demo.cfg.seiMaxBytes ∧
      demo.cfg.hmemBytes < (withArgs 63 2 0 demo).arg0.toNat + (withArgs 63 2 0 demo).arg1.toNat) ∧
    ((withArgs 0 2 55 demo).arg0.toNat + (withArgs 0 2 55 demo).arg1.toNat ≤ demo.cfg.hmemBytes ∧
      demo.cfg.hmemBytes < (withArgs 0 2 55 demo).arg2.toNat + 10) ∧
    ((withArgs 9 2 0 demo).arg2.toNat + 10 ≤ demo.cfg.hmemBytes ∧ 0 < (withArgs 9 2 0 demo).arg1.toNat ∧
      (withArgs 9 2 0 demo).arg0.toNat < (withArgs 9 2 0 demo).arg2.toNat + 10 ∧
      (withArgs 9 2 0 demo).arg2.toNat < (withArgs 9 2 0 demo).arg0.toNat + (withArgs 9 2 0 demo).arg1.toNat) := by decide

theorem witness_ExpGolombIdentityUnsigned :
    BlockInv roomy ∧ roomy.bw.wcnt = 0 ∧ roomy.bw.pb = 0 ∧ (0xFFFFFFFE : Word) ≠ 0xFFFFFFFF ∧
    (ueLen (0xFFFFFFFE : Word).toNat + 7) / 8 ≤ roomy.wbufCap ∧
    (56 : Word).toNat + (ueLen (0xFFFFFFFE : Word).toNat + 7) / 8 ≤ roomy.cfg.hmemBytes :=
  ⟨witness_roomy_inv, by decide, by decide, by decide, by decide +kernel, by decide +kernel⟩

theorem witness_ExpGolombIdentitySigned :
    BlockInv roomy ∧ roomy.bw.wcnt = 0 ∧ roomy.bw.pb = 0 ∧ (0x80000001 : Word) ≠ 0x80000000 ∧
    (ueLen (zigzag (0x80000001 : Word).toInt).toNat + 7) / 8 ≤ roomy.wbufCap ∧
    (56 : Word).toNat + (ueLen (zigzag (0x80000001 : Word).toInt).toNat + 7) / 8 ≤ roomy.cfg.hmemBytes :=
  ⟨witness_roomy_inv, by decide, by decide, by decide, by decide +kernel, by decide +kernel⟩

theorem witness_WrittenFieldsReadBack :
    BlockInv roomy ∧ roomy.bw.wcnt = 0 ∧ roomy.bw.pb = 0 ∧
    (∀ f ∈ [Field.fixed 0xDEADBEEF 32, .ue 0xFFFFFFFE, .se 0x80000001, .fixed 1 0], f.legal = true) ∧
    (([Field.fixed 0xDEADBEEF 32, .ue 0xFFFFFFFE, .se 0x80000001, .fixed 1 0].map Field.len).sum + 7) / 8 ≤ roomy.wbufCap ∧
    (44 : Word).toNat + (([Field.fixed 0xDEADBEEF 32, .ue 0xFFFFFFFE, .se 0x80000001, .fixed 1 0].map Field.len).sum + 7) / 8
      ≤ roomy.cfg.hmemBytes :=
  ⟨witness_roomy_inv, by decide, by decide, by decide, by decide +kernel, by decide +kernel⟩

end Sys2Proof.Tests
end

/-! PROOF. The opcode map (30_encoding.md R96 to R98). A word selects a row by two things: its opcode, bits 31:24, which every
mask keeps, and its reserved bits, which are the masked bits below. The opcodes of the rows differ, so a word selects at most
one row, and decoding answers that row. -/

namespace Sys2Proof.OpcodeMap

open Sys2Proof.Machine

/-! When a word selects a row. -/

/-- A word is its opcode and the 24 bits below it. -/
theorem word_eq_iff_opcode_and_low (x y : Word) :
    x = y ↔ x.toNat / 2 ^ 24 = y.toNat / 2 ^ 24 ∧ x.extractLsb' 0 24 = y.extractLsb' 0 24 := by
  refine ⟨fun h => h ▸ ⟨rfl, rfl⟩, fun ⟨hop, hlow⟩ => BitVec.eq_of_toNat_eq ?_⟩
  have hlow := congrArg BitVec.toNat hlow
  simp only [BitVec.extractLsb'_toNat, Nat.shiftRight_zero] at hlow
  omega

theorem mask_keeps_opcode {m : Word} (hm : m.toNat / 2 ^ 24 = 2 ^ 8 - 1) (c : Word) :
    (c &&& m).toNat / 2 ^ 24 = c.toNat / 2 ^ 24 := by
  rw [BitVec.toNat_and, Nat.and_div_two_pow, hm, Nat.and_two_pow_sub_one_eq_mod]
  omega

theorem mask_opcode_full_of_mem : ∀ r ∈ opcodeMap, r.mask.toNat / 2 ^ 24 = 2 ^ 8 - 1 := by decide

theorem pattern_low_eq_zero_of_mem : ∀ r ∈ opcodeMap, r.pattern.extractLsb' 0 24 = 0 := by decide

/-- A word selects a row exactly when it has the row's opcode and its bits under the rest of the mask, the reserved bits of
30_encoding.md R91 to R93, are 0. -/
theorem selects_iff {r : OpcodeRow} (hr : r ∈ opcodeMap) (c : Word) :
    r.selects c = true ↔
      c.toNat / 2 ^ 24 = r.pattern.toNat / 2 ^ 24 ∧ (c &&& r.mask).extractLsb' 0 24 = 0 := by
  rw [OpcodeRow.selects, beq_iff_eq, word_eq_iff_opcode_and_low,
    mask_keeps_opcode (mask_opcode_full_of_mem r hr), pattern_low_eq_zero_of_mem r hr]

/-! At most one row, and decoding answers it. -/

theorem nodup_opcodes : (opcodeMap.map fun r => r.pattern.toNat / 2 ^ 24).Nodup := by decide

theorem selected_row_unique {q r : OpcodeRow} (hq : q ∈ opcodeMap) (hr : r ∈ opcodeMap) {c : Word}
    (hqc : q.selects c = true) (hrc : r.selects c = true) : q = r := by
  obtain ⟨hqop, -⟩ := (selects_iff hq c).mp hqc
  obtain ⟨hrop, -⟩ := (selects_iff hr c).mp hrc
  exact List.inj_on_of_nodup_map nodup_opcodes hq hr (hqop.symm.trans hrop)

theorem rows_pairwise_exclusive :
    opcodeMap.Pairwise fun q r => ∀ c : Word, ¬ (q.selects c = true ∧ r.selects c = true) := by
  refine (List.pairwise_map.mp nodup_opcodes).imp_of_mem ?_
  rintro q r hq hr hne c ⟨hqc, hrc⟩
  exact hne (by rw [selected_row_unique hq hr hqc hrc])

theorem decode_of_selects {r : OpcodeRow} (hr : r ∈ opcodeMap) {c : Word} (hc : r.selects c = true) :
    decode c = .command (r.build c) := by
  have hfound : (opcodeMap.find? fun q => q.selects c).isSome := List.find?_isSome.mpr ⟨r, hr, hc⟩
  obtain ⟨q, hq⟩ := Option.isSome_iff_exists.mp hfound
  have hqc : q.selects c = true := List.find?_some (p := fun q : OpcodeRow => q.selects c) hq
  have hqr : q = r := selected_row_unique (List.mem_of_find?_eq_some hq) hr hqc hc
  rw [decode, hq, hqr]

theorem decode_illegal_iff (c : Word) :
    (∃ why, decode c = .illegal why) ↔ ¬ ∃ r ∈ opcodeMap, r.selects c = true := by
  constructor
  · rintro ⟨why, hill⟩ ⟨r, hr, hc⟩
    rw [decode_of_selects hr hc] at hill
    cases hill
  · intro hnone
    refine ⟨illegalReason c, ?_⟩
    rw [decode, List.find?_eq_none.mpr fun r hr hc => hnone ⟨r, hr, hc⟩]

/-- `decode_of_selects` for the row at a position of the map, with the test written out as 30_encoding.md R96 writes it. -/
theorem decode_of_row (i : Nat) (hi : i < opcodeMap.length := by decide) {c : Word}
    (hc : c &&& opcodeMap[i].mask = opcodeMap[i].pattern) : decode c = .command (opcodeMap[i].build c) :=
  decode_of_selects (List.getElem_mem hi) (beq_iff_eq.mpr hc)

/-! The fields. -/

theorem fieldW_eq_and (c : Word) : fieldW c = (c &&& 0x3F).toNat := by
  have hmask : (0x3F : Word).toNat = 2 ^ 6 - 1 := rfl
  rw [fieldW, BitVec.extractLsb'_toNat, Nat.shiftRight_zero, BitVec.toNat_and, hmask,
    Nat.and_two_pow_sub_one_eq_mod]

theorem fieldT_eq_ofNat (c : Word) : fieldT c = BitVec.ofNat 8 (c.toNat % 256) := by
  apply BitVec.eq_of_toNat_eq
  simp [fieldT]

theorem decode_wPut {c : Word} (hc : c &&& 0xFFFFFFC0 = 0x02000000) :
    decode c = .command (.wPut (c &&& 0x3F).toNat) := by
  rw [← fieldW_eq_and]
  exact decode_of_row 1 (hc := hc)

theorem decode_rGetBits {c : Word} (hc : c &&& 0xFFFFFFC0 = 0x11000000) :
    decode c = .command (.rGetBits (c &&& 0x3F).toNat) := by
  rw [← fieldW_eq_and]
  exact decode_of_row 9 (hc := hc)

theorem decode_seiBuild {c : Word} (hc : c &&& 0xFFFFFE00 = 0x20000000) {b : Bool} (hb : c.getLsbD 8 = b) :
    decode c = .command (.seiBuild (if b then .twoByte else .oneByte) (BitVec.ofNat 8 (c.toNat % 256))) := by
  rw [← hb, ← fieldT_eq_ofNat]
  exact decode_of_row 15 (hc := hc)

/-- Settles O3: each clause's test selects its row, and decoding answers the one row a word selects. -/
theorem decodeFollowsTheOpcodeMap : Obligations.DecodeFollowsTheOpcodeMap :=
  ⟨fun _ => ⟨decode_of_row 0, decode_wPut, decode_of_row 2, decode_of_row 3, decode_of_row 4, decode_of_row 5,
    decode_of_row 6, decode_of_row 7, decode_of_row 8, decode_rGetBits, decode_of_row 10, decode_of_row 11,
    decode_of_row 12, decode_of_row 13, decode_of_row 14, fun hc hf => decode_seiBuild hc hf,
    fun hc hf => decode_seiBuild hc hf⟩,
    rows_pairwise_exclusive⟩

/-! The illegal words. -/

theorem extractLsb'_eq_zero_iff (c : Word) (k n : Nat) :
    c.extractLsb' k n = 0 ↔ ∀ i < n, c.getLsbD (k + i) = false := by
  rw [BitVec.eq_of_getLsbD_eq_iff]
  refine forall₂_congr fun i hi => ?_
  simp [hi]

/-- Under a mask that drops the `k` low bits, the bits that must be 0 are bits 23:k (30_encoding.md R91 to R93). -/
theorem masked_low_eq_zero_iff {k : Nat} (hk : k ≤ 24) (c : Word) :
    (c &&& BitVec.allOnes 32 <<< k).extractLsb' 0 24 = 0 ↔ c.extractLsb' k (24 - k) = 0 := by
  have hbit : ∀ i < 24, (c &&& BitVec.allOnes 32 <<< k).getLsbD i = (c.getLsbD i && decide (k ≤ i)) := by
    intro i hi
    rw [BitVec.getLsbD_and, BitVec.getLsbD_shiftLeft, BitVec.getLsbD_allOnes]
    grind
  rw [extractLsb'_eq_zero_iff, extractLsb'_eq_zero_iff]
  constructor
  · intro h i hi
    have hki := h (k + i) (by omega)
    rw [Nat.zero_add, hbit (k + i) (by omega)] at hki
    simpa using hki
  · intro h i hi
    rw [Nat.zero_add, hbit i hi]
    by_cases hki : k ≤ i
    · have hci := h (i - k) (by omega)
      rw [Nat.add_sub_cancel' hki] at hci
      simp [hci]
    · simp [hki]

/-- The opcodes of format N in 30_encoding.md R96; `rows_by_format` and `exists_row_of_opcode` tie them to the map. -/
abbrev IsFormatN (op : Nat) : Prop :=
  (0x01 ≤ op ∧ op ≤ 0x08 ∧ op ≠ 0x02) ∨ (0x10 ≤ op ∧ op ≤ 0x16 ∧ op ≠ 0x11)

/-- The opcodes of format W. -/
abbrev IsFormatW (op : Nat) : Prop := op = 0x02 ∨ op = 0x11

/-- The opcode of format S. -/
abbrev IsFormatS (op : Nat) : Prop := op = 0x20

theorem rows_by_format : ∀ r ∈ opcodeMap,
    (r.mask = 0xFFFFFFFF ∧ IsFormatN (r.pattern.toNat / 2 ^ 24)) ∨
    (r.mask = 0xFFFFFFC0 ∧ IsFormatW (r.pattern.toNat / 2 ^ 24)) ∨
    (r.mask = 0xFFFFFE00 ∧ IsFormatS (r.pattern.toNat / 2 ^ 24)) := by decide

theorem exists_row_of_opcode : ∀ op < 0x21,
    (IsFormatN op → ∃ r ∈ opcodeMap, op = r.pattern.toNat / 2 ^ 24 ∧ r.mask = 0xFFFFFFFF) ∧
    (IsFormatW op → ∃ r ∈ opcodeMap, op = r.pattern.toNat / 2 ^ 24 ∧ r.mask = 0xFFFFFFC0) ∧
    (IsFormatS op → ∃ r ∈ opcodeMap, op = r.pattern.toNat / 2 ^ 24 ∧ r.mask = 0xFFFFFE00) := by decide

/-- The legal words, format by format: a listed opcode with the reserved bits of its format 0. -/
theorem exists_selected_row_iff (c : Word) : (∃ r ∈ opcodeMap, r.selects c = true) ↔
    (IsFormatN (c.toNat / 2 ^ 24) ∧ c.extractLsb' 0 24 = 0) ∨
    (IsFormatW (c.toNat / 2 ^ 24) ∧ c.extractLsb' 6 18 = 0) ∨
    (IsFormatS (c.toNat / 2 ^ 24) ∧ c.extractLsb' 9 15 = 0) := by
  have hN : (c &&& 0xFFFFFFFF).extractLsb' 0 24 = 0 ↔ c.extractLsb' 0 24 = 0 :=
    masked_low_eq_zero_iff (k := 0) (by decide) c
  have hW : (c &&& 0xFFFFFFC0).extractLsb' 0 24 = 0 ↔ c.extractLsb' 6 18 = 0 :=
    masked_low_eq_zero_iff (k := 6) (by decide) c
  have hS : (c &&& 0xFFFFFE00).extractLsb' 0 24 = 0 ↔ c.extractLsb' 9 15 = 0 :=
    masked_low_eq_zero_iff (k := 9) (by decide) c
  constructor
  · rintro ⟨r, hr, hc⟩
    obtain ⟨hop, hlow⟩ := (selects_iff hr c).mp hc
    rw [hop]
    obtain ⟨hm, hf⟩ | ⟨hm, hf⟩ | ⟨hm, hf⟩ := rows_by_format r hr <;> rw [hm] at hlow
    · exact .inl ⟨hf, hN.mp hlow⟩
    · exact .inr (.inl ⟨hf, hW.mp hlow⟩)
    · exact .inr (.inr ⟨hf, hS.mp hlow⟩)
  · intro hlegal
    have hlt : c.toNat / 2 ^ 24 < 0x21 := by omega
    obtain ⟨hrowN, hrowW, hrowS⟩ := exists_row_of_opcode _ hlt
    rcases hlegal with ⟨hf, hlow⟩ | ⟨hf, hlow⟩ | ⟨hf, hlow⟩
    · obtain ⟨r, hr, hop, hm⟩ := hrowN hf
      exact ⟨r, hr, (selects_iff hr c).mpr ⟨hop, hm ▸ hN.mpr hlow⟩⟩
    · obtain ⟨r, hr, hop, hm⟩ := hrowW hf
      exact ⟨r, hr, (selects_iff hr c).mpr ⟨hop, hm ▸ hW.mpr hlow⟩⟩
    · obtain ⟨r, hr, hop, hm⟩ := hrowS hf
      exact ⟨r, hr, (selects_iff hr c).mpr ⟨hop, hm ▸ hS.mpr hlow⟩⟩

theorem runCommand_of_illegal {c : Word} {why : IllegalWord} (hill : decode c = .illegal why) (s : State) :
    runCommand c s = .next { s with status := 0x10, result := 0, diagCount := s.diagCount + 1 } := by
  have hraise : runCommand c s = raise .illegal s := by rw [runCommand, hill]
  rw [hraise, raise_eq]
  rfl

/-- Settles O4: ILLEGAL are the words that select no row, which is the complement of `exists_selected_row_iff`. -/
theorem illegalWordsRaiseErrIllegal : Obligations.IllegalWordsRaiseErrIllegal := by
  refine ⟨fun c => ?_, ⟨.unassignedOpcode, by decide⟩, fun c why s hill => runCommand_of_illegal hill s⟩
  rw [decode_illegal_iff, exists_selected_row_iff]
  grind

end Sys2Proof.OpcodeMap

/-! PROOF. The writer's commands that append a field, pad, tell and copy out (40_bit_writer.md R134 to R137). A command has one
equation per branch of its pseudocode; what `emitBits` does to the stream is in Laws/Ops. -/

namespace Sys2Proof.WriterCommands

open Sys2Proof.Machine Sys2Proof.OpcodeMap

/-! Words and errors. -/

theorem raise_eq_afterError (e : ErrCode) (s : State) : raise e s = .next (s.afterError (statusWord e.code)) := rfl

theorem zext32_toNat_of_lt {v : Nat} (hv : v < 2 ^ 32) : (zext32 v).toNat = v := by
  rw [zext32, BitVec.toNat_ofNat, Nat.mod_eq_of_lt hv]

/-- WBUF_CAP, and with it WCNT, leaves room in a word for the length of the stream (00_scope.md R5, 40_bit_writer.md R136). -/
theorem wbufCap_le_of_wf {s : State} (hwf : s.cfg.wf) : s.wbufCap ≤ 2 ^ 28 := by
  obtain ⟨-, -, hcap, -⟩ := hwf
  exact hcap

/-! W_PUT (40_bit_writer.md R134). -/

theorem wPut_word_fields : ∀ w < 64,
    (0x02000000 ||| BitVec.ofNat 32 w) &&& 0xFFFFFFC0 = (0x02000000 : Word) ∧
    ((0x02000000 ||| BitVec.ofNat 32 w) &&& (0x3F : Word)).toNat = w := by decide

theorem decode_wPut_word {w : Nat} (hw : w ≤ 63) :
    decode (0x02000000 ||| BitVec.ofNat 32 w) = .command (.wPut w) := by
  obtain ⟨hpattern, hfield⟩ := wPut_word_fields w (by omega)
  rw [decode_wPut hpattern, hfield]

theorem exec_wPut_of_wide {w : Nat} (hw : 32 < w) (s : State) : exec (.wPut w) s = raise .width s :=
  if_pos hw

theorem exec_wPut_of_full {w : Nat} (hw : w ≤ 32) {s : State} (hfull : ¬ Fits s w) :
    exec (.wPut w) s = raise .nomem s :=
  (if_neg (Nat.not_lt.mpr hw)).trans (if_pos hfull)

theorem exec_wPut_of_fits {w : Nat} (hw : w ≤ 32) {s : State} (hfits : Fits s w) :
    exec (.wPut w) s = complete .ok 0 { s with bw := emitBits (s.arg0.toNat % 2 ^ w) w s.bw } :=
  (if_neg (Nat.not_lt.mpr hw)).trans (if_neg (not_not.mpr hfits))

/-- Settles O29: `emitBits_stream` and `emitBits_ok` for a field that fits, and the two checks in their order. -/
theorem putAppendsTheField : Obligations.PutAppendsTheField := by
  refine ⟨fun w hw => decode_wPut_word hw, fun s w hok hw hfits => ?_, fun s w hw => ?_, fun s w hw hfull => ?_⟩
  · refine ⟨emitBits (s.arg0.toNat % 2 ^ w) w s.bw, exec_wPut_of_fits hw hfits, ?_, emitBits_ok _ _ hok hfits⟩
    rw [emitBits_stream _ _ hok.pb_le hok.sr_lt, bin_mod]
  · exact (exec_wPut_of_wide hw s).trans (raise_eq_afterError .width s)
  · exact (exec_wPut_of_full hw (Nat.not_le.mpr hfull)).trans (raise_eq_afterError .nomem s)

/-! W_ALIGN_ZERO (40_bit_writer.md R135). -/

theorem bin_of_zero (w : Nat) : bin w 0 = List.replicate w false := by
  induction w with
  | zero => rfl
  | succ w ih => rw [bin_succ, ih, Nat.zero_testBit, List.replicate_succ]

theorem shiftIn_false (sr : Byte) : shiftIn sr false = sr <<< 1 := by
  apply BitVec.eq_of_toNat_eq
  simp [shiftIn, Nat.shiftLeft_eq]

/-- The writer after the byte `v` is committed and no bit is pending. -/
def commitByte (bw : BitWriter) (v : Byte) : BitWriter :=
  { sr := 0, pb := 0, wcnt := bw.wcnt + 1, wbuf := cellWrite bw.wbuf bw.wcnt v }

theorem emitBit_of_last {bw : BitWriter} (b : Bool) (hlast : bw.pb + 1 = 8) :
    emitBit b bw = commitByte bw (shiftIn bw.sr b) := if_pos hlast

theorem emitBit_of_pending {bw : BitWriter} (b : Bool) (hmore : bw.pb + 1 ≠ 8) :
    emitBit b bw = { bw with sr := shiftIn bw.sr b, pb := bw.pb + 1 } := if_neg hmore

theorem commitByte_byte (bw : BitWriter) (v : Byte) : (commitByte bw v).byte bw.wcnt = v := by
  simp [commitByte, BitWriter.byte]

/-- Zeros up to the byte boundary commit SR * 2^n. -/
theorem emitBits_zero_to_boundary {n : Nat} {bw : BitWriter} (hn : n ≠ 0) (hboundary : bw.pb + n = 8) :
    emitBits 0 n bw = commitByte bw (bw.sr <<< n) := by
  induction n generalizing bw with
  | zero => exact absurd rfl hn
  | succ n ih =>
    rw [emitBits, Nat.zero_testBit]
    by_cases hlast : n = 0
    · subst hlast
      rw [emitBit_of_last false hboundary, shiftIn_false, emitBits]
    · rw [emitBit_of_pending false (by omega), ih hlast (by show bw.pb + 1 + n = 8; omega), shiftIn_false,
        ← BitVec.shiftLeft_add, Nat.add_comm 1 n]
      rfl

theorem fits_padding_iff {s : State} (hpb : s.bw.pb ≤ 7) : Fits s (8 - s.bw.pb) ↔ s.bw.wcnt < s.wbufCap := by
  rw [Fits, show s.bw.pb + (8 - s.bw.pb) = 8 by omega]
  omega

theorem exec_wAlignZero_of_aligned {s : State} (haligned : s.bw.pb = 0) : exec .wAlignZero s = complete .ok 0 s :=
  if_pos haligned

theorem exec_wAlignZero_of_full {s : State} (hpending : s.bw.pb ≠ 0) (hfull : ¬ Fits s (8 - s.bw.pb)) :
    exec .wAlignZero s = raise .nomem s :=
  (if_neg hpending).trans (if_pos hfull)

theorem exec_wAlignZero_of_fits {s : State} (hpending : s.bw.pb ≠ 0) (hfits : Fits s (8 - s.bw.pb)) :
    exec .wAlignZero s = complete .ok 0 { s with bw := emitBits 0 (8 - s.bw.pb) s.bw } :=
  (if_neg hpending).trans (if_neg (not_not.mpr hfits))

/-- Settles O32: the padding is `emitBits` of zeros, so the stream is `emitBits_stream`'s and the committed byte is
`emitBits_zero_to_boundary`'s. -/
theorem alignZeroPadsToTheByte : Obligations.AlignZeroPadsToTheByte := by
  refine ⟨decode_of_row 4 (hc := by decide), fun s => exec_wAlignZero_of_aligned, fun s hok hpending hroom => ?_,
    fun s hok hpending hfull => ?_⟩
  · have hpb := hok.pb_le
    have hfits : Fits s (8 - s.bw.pb) := (fits_padding_iff hpb).mpr hroom
    have hcommit : emitBits 0 (8 - s.bw.pb) s.bw = commitByte s.bw (s.bw.sr <<< (8 - s.bw.pb)) :=
      emitBits_zero_to_boundary (by omega) (by omega)
    have hstream := emitBits_stream 0 (8 - s.bw.pb) hpb hok.sr_lt
    have hok' := emitBits_ok 0 (8 - s.bw.pb) hok hfits
    have hexec := exec_wAlignZero_of_fits hpending hfits
    rw [hcommit] at hstream hok' hexec
    rw [bin_of_zero] at hstream
    exact ⟨_, hexec, rfl, rfl, rfl, commitByte_byte _ _, hstream, hok'⟩
  · have hnofit : ¬ Fits s (8 - s.bw.pb) := by
      rw [fits_padding_iff hok.pb_le, hfull]
      exact Nat.lt_irrefl _
    exact (exec_wAlignZero_of_full hpending hnofit).trans (raise_eq_afterError .nomem s)

/-! W_TELL (40_bit_writer.md R136). -/

@[simp] theorem committed_length (bw : BitWriter) : bw.committed.length = bw.wcnt := by simp [BitWriter.committed]

/-- TELL is the length of the stream (10_state.md R34). -/
theorem stream_length (bw : BitWriter) : bw.stream.length = bw.tell := by
  simp [BitWriter.stream, BitWriter.tell, List.length_flatMap, Nat.mul_comm]

theorem tell_lt_word {s : State} (hwf : s.cfg.wf) (hok : s.bw.Ok s.wbufCap) : s.bw.tell < 2 ^ 32 := by
  have hcap := wbufCap_le_of_wf hwf
  have hwcnt := hok.wcnt_le
  have hpb := hok.pb_le
  rw [BitWriter.tell]
  omega

/-- Settles O34: TELL is the stream's length, and it fits in RESULT. -/
theorem tellReturnsTheStreamLength : Obligations.TellReturnsTheStreamLength := by
  refine ⟨decode_of_row 5 (hc := by decide), fun s hwf hok => ?_⟩
  have hresult : (zext32 s.bw.tell).toNat = s.bw.tell := zext32_toNat_of_lt (tell_lt_word hwf hok)
  exact ⟨zext32 s.bw.tell, rfl, hresult, hresult.trans (stream_length s.bw).symm⟩

/-! W_COPY_OUT (40_bit_writer.md R137). -/

theorem committed_getElem? (bw : BitWriter) (i : Nat) :
    bw.committed[i]? = if i < bw.wcnt then some (bw.byte i) else none := by
  by_cases hi : i < bw.wcnt <;> simp [BitWriter.committed, hi]

/-- A byte of HMEM after a run of bytes is stored from address `d` up. -/
theorem memRead_cellWriteList (s : State) (d a : Nat) (l : List Byte) :
    ({ s with hmem := cellWriteList s.hmem d l } : State).memRead a =
      if d ≤ a then (l[a - d]?).getD (s.memRead a) else s.memRead a := by
  simp only [State.memRead, cellRead_cellWriteList]
  split
  · cases l[a - d]? <;> rfl
  · rfl

theorem memRead_of_committed_copied (s : State) (d a : Nat) :
    ({ s with hmem := cellWriteList s.hmem d s.bw.committed } : State).memRead a =
      if d ≤ a ∧ a < d + s.bw.wcnt then s.bw.byte (a - d) else s.memRead a := by
  rw [memRead_cellWriteList, committed_getElem?]
  by_cases hd : d ≤ a
  · have hindex : a - d < s.bw.wcnt ↔ a < d + s.bw.wcnt := by omega
    by_cases hin : a < d + s.bw.wcnt <;> simp [hd, hindex, hin]
  · simp [hd]

theorem exec_wCopyOut_of_outside {s : State} (hout : ¬ InRange s.cfg s.arg0.toNat s.bw.wcnt) :
    exec .wCopyOut s = raise .range s := if_pos hout

theorem exec_wCopyOut_of_inRange {s : State} (hin : InRange s.cfg s.arg0.toNat s.bw.wcnt) :
    exec .wCopyOut s = complete .ok (zext32 s.bw.wcnt)
      { s with hmem := cellWriteList s.hmem s.arg0.toNat s.bw.committed } := if_neg (not_not.mpr hin)

/-- Settles O35: every byte of the stored run is a committed byte, and WCNT fits in RESULT. -/
theorem copyOutWritesTheCommittedBytes : Obligations.CopyOutWritesTheCommittedBytes := by
  refine ⟨decode_of_row 6 (hc := by decide), fun s hwf hok hin => ?_, fun s hout => ?_⟩
  · have hwcnt : s.bw.wcnt < 2 ^ 32 := by
      have hcap := wbufCap_le_of_wf hwf
      have hle := hok.wcnt_le
      omega
    exact ⟨cellWriteList s.hmem s.arg0.toNat s.bw.committed, zext32 s.bw.wcnt, exec_wCopyOut_of_inRange hin,
      zext32_toNat_of_lt hwcnt, memRead_of_committed_copied s s.arg0.toNat⟩
  · exact (exec_wCopyOut_of_outside (Nat.not_le.mpr hout)).trans (raise_eq_afterError .range s)

end Sys2Proof.WriterCommands

/-! PROOF. The reader's commands that attach a buffer, read a field, skip and report (41_bit_reader.md R172 to R177). A command
has one equation per branch of its pseudocode; the bits of ReadField come from `bin_readField` in Laws/Ops. -/

namespace Sys2Proof.ReaderCommands

open Sys2Proof.Machine Sys2Proof.OpcodeMap Sys2Proof.WriterCommands

/-- A position up to the end of the buffer fits in RCUR, because RBITS is a word. -/
theorem zext32_toNat_of_le {p : Nat} {bits : Word} (hp : p ≤ bits.toNat) : (zext32 p).toNat = p :=
  zext32_toNat_of_lt (Nat.lt_of_le_of_lt hp bits.isLt)

/-! R_INIT (41_bit_reader.md R172). -/

theorem exec_rInit_of_outside {s : State} (hout : ¬ InRange s.cfg s.arg0.toNat (ceil8 s.arg1.toNat)) :
    exec .rInit s = raise .range s := if_pos hout

theorem exec_rInit_of_inRange {s : State} (hin : InRange s.cfg s.arg0.toNat (ceil8 s.arg1.toNat)) :
    exec .rInit s = complete .ok 0 { s with br := { base := s.arg0, bits := s.arg1, cur := 0 } } :=
  if_neg (not_not.mpr hin)

/-- Settles O38: the two branches of R172. -/
theorem readerInitAttachesTheBuffer : Obligations.ReaderInitAttachesTheBuffer := by
  refine ⟨decode_of_row 8 (hc := by decide), fun s hin => ?_, fun s hout => ?_⟩
  · rw [exec_rInit_of_inRange hin]
    rfl
  · exact (exec_rInit_of_outside (Nat.not_le.mpr hout)).trans (raise_eq_afterError .range s)

/-! R_SKIP_BITS (41_bit_reader.md R174). -/

theorem exec_rSkipBits_of_past {s : State} (hpast : s.br.bits.toNat < s.br.cur.toNat + s.arg0.toNat) :
    exec .rSkipBits s = complete .skipNop 0 s := if_pos hpast

theorem exec_rSkipBits_of_inside {s : State} (hinside : s.br.cur.toNat + s.arg0.toNat ≤ s.br.bits.toNat) :
    exec .rSkipBits s = complete .ok 0 (s.moveCursor (s.br.cur.toNat + s.arg0.toNat)) :=
  if_neg (Nat.not_lt.mpr hinside)

/-- Settles O40: the sum is exact in `Nat`, and where it is at most RBITS it fits in RCUR. -/
theorem skipBitsMovesOrSoftFails : Obligations.SkipBitsMovesOrSoftFails := by
  refine ⟨decode_of_row 12 (hc := by decide), fun s hinside => ?_, fun s hpast => ?_⟩
  · exact ⟨zext32 (s.br.cur.toNat + s.arg0.toNat), exec_rSkipBits_of_inside hinside, zext32_toNat_of_le hinside⟩
  · rw [exec_rSkipBits_of_past hpast]
    rfl

/-! R_BITS_COUNT and R_BITS_LEFT (41_bit_reader.md R175, R176). -/

theorem exec_rBitsCount (s : State) : exec .rBitsCount s = complete .ok s.br.cur s := rfl

theorem exec_rBitsLeft (s : State) : exec .rBitsLeft s = complete .ok (s.br.bits - s.br.cur) s := rfl

/-- Settles O41: the 32-bit difference is exact where RCUR is at most RBITS. -/
theorem bitsCountAndBitsLeft : Obligations.BitsCountAndBitsLeft := by
  refine ⟨decode_of_row 13 (hc := by decide), decode_of_row 14 (hc := by decide), exec_rBitsCount, fun s hcur => ?_⟩
  have hleft : (s.br.bits - s.br.cur).toNat = s.br.bits.toNat - s.br.cur.toNat :=
    BitVec.toNat_sub_of_le (BitVec.le_def.mpr hcur)
  exact ⟨s.br.bits - s.br.cur, exec_rBitsLeft s, by omega⟩

/-! R_GET_BITS (41_bit_reader.md R173, R177). -/

theorem rGetBits_word_fields : ∀ n < 64,
    (0x11000000 ||| BitVec.ofNat 32 n) &&& 0xFFFFFFC0 = (0x11000000 : Word) ∧
    ((0x11000000 ||| BitVec.ofNat 32 n) &&& (0x3F : Word)).toNat = n := by decide

theorem decode_rGetBits_word {n : Nat} (hn : n ≤ 63) :
    decode (0x11000000 ||| BitVec.ofNat 32 n) = .command (.rGetBits n) := by
  obtain ⟨hpattern, hfield⟩ := rGetBits_word_fields n (by omega)
  rw [decode_rGetBits hpattern, hfield]

theorem exec_rGetBits_of_wide {n : Nat} (hn : 32 < n) (s : State) : exec (.rGetBits n) s = raise .width s :=
  if_pos hn

theorem exec_rGetBits_of_past {n : Nat} (hn : n ≤ 32) {s : State}
    (hpast : s.br.bits.toNat < s.br.cur.toNat + n) : exec (.rGetBits n) s = raise .overrun s :=
  (if_neg (Nat.not_lt.mpr hn)).trans (if_pos hpast)

theorem exec_rGetBits_of_inside {n : Nat} (hn : n ≤ 32) {s : State}
    (hinside : s.br.cur.toNat + n ≤ s.br.bits.toNat) :
    exec (.rGetBits n) s =
      complete .ok (zext32 (s.readField s.br.cur.toNat n)) (s.moveCursor (s.br.cur.toNat + n)) :=
  (if_neg (Nat.not_lt.mpr hn)).trans (if_neg (Nat.not_lt.mpr hinside))

/-- RdBit(p) is bit 7 - p % 8 of byte p / 8 of the buffer (41_bit_reader.md R170). -/
theorem rdBit_eq_getLsbD (s : State) (p : Nat) :
    s.rdBit p = (s.memRead (s.br.base.toNat + p / 8)).getLsbD (7 - p % 8) := by
  rw [State.rdBit, ← BitVec.testBit_toNat, Nat.testBit_eq_decide_div_mod_eq]
  rfl

/-- The first bit read is the most significant (41_bit_reader.md R171). -/
theorem testBit_readField (s : State) (p : Nat) {n i : Nat} (hi : i < n) :
    (s.readField p n).testBit (n - 1 - i) = s.rdBit (p + i) := by
  have hlen : i < (bin n (s.readField p n)).length := by rwa [bin_length]
  rw [← bin_getElem n (s.readField p n) i hlen]
  simp only [bin_readField, readerBits_getElem]

theorem readField_lt_word (s : State) (p : Nat) {n : Nat} (hn : n ≤ 32) : s.readField p n < 2 ^ 32 :=
  Nat.lt_of_lt_of_le (readField_lt s p n) (Nat.pow_le_pow_right (by decide) hn)

/-- Settles O39: RESULT is ReadField, which fits in it, so its bits are RdBit's, and those are bits of HMEM. -/
theorem getBitsReadsTheFieldAtEveryPosition : Obligations.GetBitsReadsTheFieldAtEveryPosition := by
  refine ⟨fun n hn => decode_rGetBits_word hn, fun s n hn hinside => ?_, fun s n hn => ?_, fun s n hn hpast => ?_⟩
  · have hresult : (zext32 (s.readField s.br.cur.toNat n)).toNat = s.readField s.br.cur.toNat n :=
      zext32_toNat_of_lt (readField_lt_word s _ hn)
    refine ⟨zext32 (s.readField s.br.cur.toNat n), zext32 (s.br.cur.toNat + n), exec_rGetBits_of_inside hn hinside,
      zext32_toNat_of_le hinside, hresult.trans_lt (readField_lt s _ n), fun i hi => ?_⟩
    rw [hresult, testBit_readField s _ hi, rdBit_eq_getLsbD]
  · exact (exec_rGetBits_of_wide hn s).trans (raise_eq_afterError .width s)
  · exact (exec_rGetBits_of_past hn hpast).trans (raise_eq_afterError .overrun s)

end Sys2Proof.ReaderCommands

/-! PROOF. The Exp-Golomb commands (42_exp_golomb.md R201, R203 to R205). W_PUT_UE and W_PUT_SE are both `putUe`, so its three
branches are settled once; R_GET_UE and R_GET_SE both answer from `State.readUe`, whose value is worked out here from what the
buffer holds at the cursor. -/

namespace Sys2Proof.ExpGolombCommands

open Sys2Proof.Machine Sys2Proof.OpcodeMap Sys2Proof.WriterCommands Sys2Proof.ReaderCommands

/-! W_PUT_UE and W_PUT_SE (42_exp_golomb.md R201, R203). -/

theorem exec_wPutUe (s : State) : exec .wPutUe s = putUe s.arg0.toNat s := rfl

theorem exec_wPutSe (s : State) : exec .wPutSe s = putUe (zz s.arg0.toInt) s := rfl

theorem putUe_of_above_max {u : Nat} (hu : ueMax < u) (s : State) : putUe u s = .next (s.afterError 0x12) :=
  (if_pos hu).trans (raise_eq_afterError .ueRange s)

theorem putUe_of_full {u : Nat} {s : State} (hu : u ≤ ueMax) (hfull : ¬ Fits s (ueLen u)) :
    putUe u s = .next (s.afterError 0x13) :=
  ((if_neg (Nat.not_lt.mpr hu)).trans (if_pos hfull)).trans (raise_eq_afterError .nomem s)

theorem putUe_of_fits {u : Nat} {s : State} (hu : u ≤ ueMax) (hfits : Fits s (ueLen u)) :
    putUe u s = complete .ok 0 { s with bw := emitUe u s.bw } :=
  (if_neg (Nat.not_lt.mpr hu)).trans (if_neg (not_not.mpr hfits))

/-- A ue code with room for it is appended whole, and the writer keeps its invariants. -/
theorem putUe_appends {u : Nat} {s : State} (hok : s.bw.Ok s.wbufCap) (hu : u ≤ ueMax) (hfits : Fits s (ueLen u)) :
    ∃ bw : BitWriter, putUe u s = .next { s with bw := bw, status := 0, result := 0 } ∧
      bw.stream = s.bw.stream ++ List.replicate (ueL u) false ++ bin (ueL u + 1) (u + 1) ∧ bw.Ok s.wbufCap := by
  refine ⟨emitUe u s.bw, putUe_of_fits hu hfits, ?_, emitUe_ok hok hfits⟩
  rw [emitUe_stream hu hok.pb_le hok.sr_lt, ueBits, bin_of_zero, List.append_assoc]

/-- The one word that is no ue value (00_scope.md R6). -/
theorem toNat_le_ueMax {v : Word} (hv : v ≠ 0xFFFFFFFF) : v.toNat ≤ ueMax := by
  have hne : v.toNat ≠ 2 ^ 32 - 1 := fun h => hv (BitVec.eq_of_toNat_eq h)
  have hlt := v.isLt
  rw [ueMax]
  omega

/-- Settles O30: the three branches of `putUe` at ARG0. -/
theorem putUeAppendsTheCode : Obligations.PutUeAppendsTheCode := by
  refine ⟨decode_of_row 2 (hc := by decide), ?fits, fun s hmax => ?range, ?full⟩
  case fits =>
    rintro s L hok hu rfl hfits
    exact putUe_appends hok hu hfits
  case range =>
    rw [exec_wPutUe, hmax]
    exact putUe_of_above_max (by decide) s
  case full =>
    rintro s L hne rfl hfull
    exact putUe_of_full (toNat_le_ueMax hne) (Nat.not_le.mpr hfull)

/-- The zig-zag is exact: a natural number with the integer's value is its `zz` (30_encoding.md R102). -/
theorem zz_eq_of_cast_eq {u : Nat} {k : Int} (hu : (u : Int) = if 0 < k then 2 * k - 1 else -2 * k) : zz k = u := by
  rw [zz]
  split at hu <;> rename_i hk
  · rw [if_pos hk, ← hu, Int.toNat_natCast]
  · rw [if_neg hk, ← hu, Int.toNat_natCast]

/-- Every 32-bit integer but -2^31 has a zig-zag value with a ue code (42_exp_golomb.md R203). -/
theorem zz_toInt_le_ueMax {v : Word} (hv : v ≠ 0x80000000) : zz v.toInt ≤ ueMax := by
  have hne : v.toInt ≠ -2 ^ 31 := fun h => hv (BitVec.eq_of_toInt_eq h)
  have hlow : -2 ^ 31 ≤ v.toInt := v.le_toInt
  have hhigh : v.toInt < 2 ^ 31 := v.toInt_lt
  rw [zz, ueMax]
  split <;> omega

/-- Settles O31: the three branches of `putUe` at the zig-zag of ARG0. -/
theorem putSeAppendsTheCode : Obligations.PutSeAppendsTheCode := by
  refine ⟨decode_of_row 3 (hc := by decide), ?fits, fun s hmin => ?range, ?full⟩
  case fits =>
    rintro s u L hok hne hu rfl hfits
    have hzz := zz_eq_of_cast_eq hu
    rw [exec_wPutSe, hzz]
    exact putUe_appends hok (hzz ▸ zz_toInt_le_ueMax hne) hfits
  case range =>
    rw [exec_wPutSe, hmin]
    exact putUe_of_above_max (by decide) s
  case full =>
    rintro s u L hne hu rfl hfull
    have hzz := zz_eq_of_cast_eq hu
    rw [exec_wPutSe, hzz]
    exact putUe_of_full (hzz ▸ zz_toInt_le_ueMax hne) (Nat.not_le.mpr hfull)

/-! What `State.readUe` answers, from what the buffer holds at the cursor (42_exp_golomb.md R204). -/

theorem readUe_of_zeros {s : State} (hinside : s.br.cur.toNat + 32 ≤ s.br.bits.toNat)
    (hzeros : ∀ i < 32, s.rdBit (s.br.cur.toNat + i) = false) : s.readUe = .guard (s.br.cur.toNat + 32) := by
  obtain ⟨-, hguard⟩ | ⟨k, hk, -, hend, -⟩ | ⟨k, hk, -, -, hone, -⟩ := readUe_cases s
  · exact hguard
  · omega
  · simp [hzeros k hk] at hone

theorem readUe_of_end_before_one {s : State} {k : Nat} (hk : k < 32) (hend : s.br.bits.toNat ≤ s.br.cur.toNat + k)
    (hzeros : ∀ i < k, s.rdBit (s.br.cur.toNat + i) = false) : s.readUe = .overrun := by
  obtain ⟨hall, -⟩ | ⟨-, -, -, -, hover⟩ | ⟨j, -, -, hinside, hone, -⟩ := readUe_cases s
  · obtain ⟨hinside, -⟩ := hall k hk
    omega
  · exact hover
  · simp [hzeros j (by omega)] at hone

/-- After L zeros and a 1, the code's 2L + 1 bits are in the buffer or they are not. -/
theorem readUe_of_one {s : State} {L : Nat} (hL : L ≤ 31) (hinside : s.br.cur.toNat + L < s.br.bits.toNat)
    (hzeros : ∀ i < L, s.rdBit (s.br.cur.toNat + i) = false) (hone : s.rdBit (s.br.cur.toNat + L) = true) :
    s.readUe = if s.br.bits.toNat < s.br.cur.toNat + (2 * L + 1) then .overrun
      else .value (2 ^ L - 1 + s.readField (s.br.cur.toNat + L + 1) L) (s.br.cur.toNat + (2 * L + 1)) := by
  obtain ⟨hall, -⟩ | ⟨k, -, hall, hend, -⟩ | ⟨k, -, hall, -, hkone, hread⟩ := readUe_cases s
  · simp [(hall L (by omega)).2] at hone
  · simp [(hall L (by omega)).2] at hone
  · have hLk : ¬ L < k := fun h => by simp [(hall L h).2] at hone
    have hkL : ¬ k < L := fun h => by simp [hzeros k h] at hkone
    obtain rfl : k = L := by omega
    obtain ⟨hshort, hover⟩ | ⟨hlong, hvalue⟩ := hread
    · rw [if_pos hshort, hover]
    · rw [if_neg (Nat.not_lt.mpr hlong), hvalue]

theorem readerBits_add (s : State) (p m n : Nat) :
    s.readerBits p (m + n) = s.readerBits p m ++ s.readerBits (p + m) n := by
  simp [State.readerBits, List.range_add, Nat.add_assoc]

/-- A whole code at position `p`, taken apart: zeros, the first 1, and the suffix as a number. -/
theorem zeros_one_suffix_of_readerBits {s : State} {p L x : Nat} (hx : x < 2 ^ L)
    (hbits : s.readerBits p (2 * L + 1) = List.replicate L false ++ [true] ++ bin L x) :
    (∀ i < L, s.rdBit (p + i) = false) ∧ s.rdBit (p + L) = true ∧ s.readField (p + L + 1) L = x := by
  rw [show 2 * L + 1 = L + 1 + L by omega, readerBits_add, readerBits_add] at hbits
  obtain ⟨hhead, hsuffix⟩ := List.append_inj hbits (by simp)
  obtain ⟨hzeros, hone⟩ := List.append_inj hhead (by simp)
  refine ⟨fun i hi => ?_, by simpa [State.readerBits] using hone, ?_⟩
  · rw [← readerBits_getElem s p L i (by simpa using hi)]
    simp [hzeros]
  · rw [← bin_readField] at hsuffix
    exact bin_inj (readField_lt s _ L) hx hsuffix

/-- A whole ue code at the cursor reads as its value (30_encoding.md R101). -/
theorem readUe_of_code {s : State} {L x : Nat} (hL : L ≤ 31) (hx : x < 2 ^ L)
    (hinside : s.br.cur.toNat + (2 * L + 1) ≤ s.br.bits.toNat)
    (hbits : s.readerBits s.br.cur.toNat (2 * L + 1) = List.replicate L false ++ [true] ++ bin L x) :
    s.readUe = .value (2 ^ L - 1 + x) (s.br.cur.toNat + (2 * L + 1)) := by
  obtain ⟨hzeros, hone, hsuffix⟩ := zeros_one_suffix_of_readerBits hx hbits
  rw [readUe_of_one hL (by omega) hzeros hone, if_neg (Nat.not_lt.mpr hinside), hsuffix]

/-- A code with at most 31 leading zeros has a value that fits in RESULT. -/
theorem ueValue_lt_word {L x : Nat} (hL : L ≤ 31) (hx : x < 2 ^ L) : 2 ^ L - 1 + x < 2 ^ 32 := by
  have hpow : 2 ^ L ≤ 2 ^ 31 := Nat.pow_le_pow_right (by decide) hL
  omega

theorem readUe_value_lt_word {s : State} {u p : Nat} (hread : s.readUe = .value u p) : u < 2 ^ 32 := by
  obtain ⟨-, h⟩ | ⟨-, -, -, -, h⟩ | ⟨k, hk, -, -, -, ⟨-, h⟩ | ⟨-, h⟩⟩ := readUe_cases s
  · cases h.symm.trans hread
  · cases h.symm.trans hread
  · cases h.symm.trans hread
  · cases h.symm.trans hread
    exact ueValue_lt_word (by omega) (readField_lt s _ k)

/-! R_GET_UE and R_GET_SE, one equation per answer of `State.readUe` (42_exp_golomb.md R204, R205). -/

theorem exec_rGetUe (s : State) : exec .rGetUe s = execRGetUe s := rfl

theorem exec_rGetUe_of_guard {s : State} {p : Nat} (hread : s.readUe = .guard p) :
    exec .rGetUe s = complete .ueGuard 0 (s.moveCursor p) := by
  rw [exec_rGetUe, execRGetUe, hread]

theorem exec_rGetUe_of_overrun {s : State} (hread : s.readUe = .overrun) :
    exec .rGetUe s = .next (s.afterError 0x14) := by
  rw [exec_rGetUe, execRGetUe, hread]
  exact raise_eq_afterError .overrun s

theorem exec_rGetUe_of_value {s : State} {u p : Nat} (hread : s.readUe = .value u p) :
    exec .rGetUe s = complete .ok (zext32 u) (s.moveCursor p) := by
  rw [exec_rGetUe, execRGetUe, hread]

theorem exec_rGetSe (s : State) : exec .rGetSe s = execRGetSe s := rfl

theorem exec_rGetSe_of_guard {s : State} {p : Nat} (hread : s.readUe = .guard p) :
    exec .rGetSe s = complete .ueGuard (twos32 (izz 0)) (s.moveCursor p) := by
  rw [exec_rGetSe, execRGetSe, hread]

theorem exec_rGetSe_of_overrun {s : State} (hread : s.readUe = .overrun) :
    exec .rGetSe s = .next (s.afterError 0x14) := by
  rw [exec_rGetSe, execRGetSe, hread]
  exact raise_eq_afterError .overrun s

theorem exec_rGetSe_of_value {s : State} {u p : Nat} (hread : s.readUe = .value u p) :
    exec .rGetSe s = complete .ok (twos32 (izz u)) (s.moveCursor p) := by
  rw [exec_rGetSe, execRGetSe, hread]

/-- Settles O42: each clause's buffer fixes the answer of `State.readUe`; the value and the cursor fit in their registers. -/
theorem getUeReadsTheCode : Obligations.GetUeReadsTheCode := by
  refine ⟨decode_of_row 10 (hc := by decide), fun s L x hL hx hinside hbits => ?code, fun s hinside hzeros => ?guard,
    fun s k hk hend hzeros => ?endBeforeOne, fun s L hL hinside hzeros hone hshort => ?endInSuffix⟩
  case code =>
    exact ⟨zext32 (2 ^ L - 1 + x), zext32 (s.br.cur.toNat + (2 * L + 1)),
      exec_rGetUe_of_value (readUe_of_code hL hx hinside hbits), zext32_toNat_of_lt (ueValue_lt_word hL hx),
      zext32_toNat_of_le hinside⟩
  case guard =>
    exact ⟨zext32 (s.br.cur.toNat + 32), exec_rGetUe_of_guard (readUe_of_zeros hinside hzeros),
      zext32_toNat_of_le hinside⟩
  case endBeforeOne =>
    exact exec_rGetUe_of_overrun (readUe_of_end_before_one hk hend hzeros)
  case endInSuffix =>
    exact exec_rGetUe_of_overrun ((readUe_of_one hL hinside hzeros hone).trans (if_pos hshort))

/-- The inverse zig-zag in integer arithmetic (30_encoding.md R102). -/
theorem izz_eq (u : Nat) : izz u = if u % 2 = 1 then ((u : Int) + 1) / 2 else -((u : Int) / 2) := by
  rw [izz]
  split <;> omega

theorem twos32_izz_zero : twos32 (izz 0) = 0 := by decide

/-- Settles O44: on the guard and on an overrun RESULT is 0, whose inverse zig-zag is 0; a value that was read fits in RESULT,
so R_GET_UE's RESULT is that value. -/
theorem getSeIsGetUeUnzigzagged : Obligations.GetSeIsGetUeUnzigzagged := by
  refine ⟨decode_of_row 11 (hc := by decide), fun s t r hue hr => ?_⟩
  rw [← izz_eq] at hr
  subst hr
  cases hread : s.readUe with
  | guard p =>
    cases hue.symm.trans (exec_rGetUe_of_guard hread)
    exact exec_rGetSe_of_guard hread
  | overrun =>
    cases hue.symm.trans (exec_rGetUe_of_overrun hread)
    show _ = Host.Outcome.next { s.afterError 0x14 with result := twos32 (izz 0) }
    rw [exec_rGetSe_of_overrun hread, twos32_izz_zero]
    rfl
  | value u p =>
    cases hue.symm.trans (exec_rGetUe_of_value hread)
    have hresult : (zext32 u).toNat = u := zext32_toNat_of_lt (readUe_value_lt_word hread)
    show _ = complete .ok (twos32 (izz (zext32 u).toNat)) (s.moveCursor p)
    rw [exec_rGetSe_of_value hread, hresult]

end Sys2Proof.ExpGolombCommands

/-! PROOF. The SEI frame builder (43_sei_frame_builder.md R230, R232). The command has one equation per branch of R232; the bytes
it leaves in HMEM are a run stored from ARG2 up, whose length is FrameLen. -/

namespace Sys2Proof.SeiCommand

open Sys2Proof.Machine Sys2Proof.OpcodeMap Sys2Proof.WriterCommands Sys2Proof.Laws

/-! The word (30_encoding.md R93). -/

theorem fieldF_formatS (opc : Byte) (f : Family) (t : Byte) : fieldF (formatS opc f t) = f := by
  have hbit : (formatS opc f t).getLsbD 8 = f.bit.getLsbD 0 := by
    rw [formatS, BitVec.getLsbD_append, BitVec.getLsbD_append]
    rfl
  rw [fieldF, hbit]
  cases f <;> rfl

theorem fieldT_formatS (opc : Byte) (f : Family) (t : Byte) : fieldT (formatS opc f t) = t :=
  BitVec.extractLsb'_append_eq_right

theorem decode_formatS (f : Family) (t : Byte) : decode (formatS 0x20 f t) = .command (.seiBuild f t) := by
  have hrow : decode (formatS 0x20 f t) =
      .command (.seiBuild (fieldF (formatS 0x20 f t)) (fieldT (formatS 0x20 f t))) :=
    decode_of_row 15 (hc := SelectsItsRow.formatS_sei f.bit t)
  rw [hrow, fieldF_formatS, fieldT_formatS]

/-- Format S as a union of its fields: the type byte stands below the constant bits of a family. -/
theorem formatS_eq_or (opc : Byte) (f : Family) (t : Byte) :
    formatS opc f t = (opc ++ 0#15 ++ f.bit).shiftLeftZeroExtend 8 ||| t.setWidth 32 := rfl

/-! The frame and its length (30_encoding.md R104, R105; 43_sei_frame_builder.md R230). -/

theorem frameLen_eq (f : Family) (n : Nat) : frameLen f n = n + n / 255 + nalHdrLen f + 7 := by
  rw [frameLen]
  omega

theorem frame_length (p : Config.Params) (f : Family) (t : Byte) (payload : List Byte) :
    (frame p f t payload).length = frameLen f payload.length := by
  simp [frame, startCode, frameLen]
  omega

theorem memReadList_length (s : State) (a n : Nat) : (s.memReadList a n).length = n := by
  simp [State.memReadList]

/-- The bytes SEI_BUILD stores (43_sei_frame_builder.md R232). -/
def seiFrame (s : State) (f : Family) (t : Byte) : List Byte :=
  frame s.cfg f t (s.memReadList s.arg0.toNat s.arg1.toNat)

theorem seiFrame_length (s : State) (f : Family) (t : Byte) :
    (seiFrame s f t).length = frameLen f s.arg1.toNat := by
  rw [seiFrame, frame_length, memReadList_length]

theorem seiFrame_eq (s : State) (f : Family) (t : Byte) :
    seiFrame s f t = [0x00, 0x00, 0x00, 0x01] ++ nalHdr s.cfg f ++ [t] ++
      List.replicate (s.arg1.toNat / 255) 0xFF ++ [BitVec.ofNat 8 (s.arg1.toNat % 255)] ++
      (List.range s.arg1.toNat).map (fun i => s.memRead (s.arg0.toNat + i)) ++ [0x80] := by
  rw [seiFrame, frame, memReadList_length, sizeBytes, ← List.append_assoc]
  rfl

/-- A frame that SEI_BUILD stores fits in RESULT: one of 2^32 bytes would cover every address, its payload's too. -/
theorem frameLen_lt_word {s : State} {f : Family} (hwf : s.cfg.wf)
    (hdst : InRange s.cfg s.arg2.toNat (frameLen f s.arg1.toNat))
    (hdisjoint : ¬ Overlap s.arg0.toNat s.arg1.toNat s.arg2.toNat (frameLen f s.arg1.toNat)) :
    frameLen f s.arg1.toNat < 2 ^ 32 := by
  obtain ⟨-, -, -, -, hhmem, -⟩ := hwf
  have hhdr : nalHdrLen f ≤ 2 := by cases f <;> decide
  have hlen := frameLen_eq f s.arg1.toNat
  omega

/-- A byte of HMEM after a run of bytes is stored: a byte of the run inside it, the old byte elsewhere. -/
theorem memRead_cellWriteList_getD (s : State) (d a : Nat) (l : List Byte) :
    ({ s with hmem := cellWriteList s.hmem d l } : State).memRead a =
      if d ≤ a ∧ a < d + l.length then l.getD (a - d) 0 else s.memRead a := by
  rw [memRead_cellWriteList]
  by_cases hd : d ≤ a
  · by_cases hin : a < d + l.length
    · have hindex : a - d < l.length := by omega
      simp [hd, hin, hindex]
    · have hindex : l.length ≤ a - d := by omega
      simp [hd, hin, hindex]
  · simp [hd]

/-! The branches of SEI_BUILD, in the order of its checks (43_sei_frame_builder.md R232). -/

theorem exec_seiBuild (f : Family) (t : Byte) (s : State) : exec (.seiBuild f t) s = execSeiBuild f t s := rfl

theorem exec_seiBuild_of_too_long {s : State} {f : Family} (t : Byte)
    (hlong : s.cfg.seiMaxBytes < frameLen f s.arg1.toNat) : exec (.seiBuild f t) s = .next (s.afterError 0x16) :=
  (if_pos hlong).trans (raise_eq_afterError .seiSize s)

theorem exec_seiBuild_of_payload_outside {s : State} {f : Family} (t : Byte)
    (hsize : frameLen f s.arg1.toNat ≤ s.cfg.seiMaxBytes)
    (hsrc : ¬ InRange s.cfg s.arg0.toNat s.arg1.toNat) : exec (.seiBuild f t) s = .next (s.afterError 0x15) :=
  (if_neg (Nat.not_lt.mpr hsize)).trans <| (if_pos hsrc).trans (raise_eq_afterError .range s)

theorem exec_seiBuild_of_output_outside {s : State} {f : Family} (t : Byte)
    (hsize : frameLen f s.arg1.toNat ≤ s.cfg.seiMaxBytes)
    (hsrc : InRange s.cfg s.arg0.toNat s.arg1.toNat)
    (hdst : ¬ InRange s.cfg s.arg2.toNat (frameLen f s.arg1.toNat)) :
    exec (.seiBuild f t) s = .next (s.afterError 0x15) :=
  (if_neg (Nat.not_lt.mpr hsize)).trans <| (if_neg (not_not.mpr hsrc)).trans <|
    (if_pos hdst).trans (raise_eq_afterError .range s)

theorem exec_seiBuild_of_overlap {s : State} {f : Family} (t : Byte)
    (hsize : frameLen f s.arg1.toNat ≤ s.cfg.seiMaxBytes)
    (hsrc : InRange s.cfg s.arg0.toNat s.arg1.toNat)
    (hdst : InRange s.cfg s.arg2.toNat (frameLen f s.arg1.toNat))
    (hoverlap : Overlap s.arg0.toNat s.arg1.toNat s.arg2.toNat (frameLen f s.arg1.toNat)) :
    exec (.seiBuild f t) s = .next (s.afterError 0x17) :=
  (if_neg (Nat.not_lt.mpr hsize)).trans <| (if_neg (not_not.mpr hsrc)).trans <|
    (if_neg (not_not.mpr hdst)).trans <| (if_pos hoverlap).trans (raise_eq_afterError .overlap s)

theorem exec_seiBuild_of_room {s : State} {f : Family} (t : Byte)
    (hsize : frameLen f s.arg1.toNat ≤ s.cfg.seiMaxBytes)
    (hsrc : InRange s.cfg s.arg0.toNat s.arg1.toNat)
    (hdst : InRange s.cfg s.arg2.toNat (frameLen f s.arg1.toNat))
    (hdisjoint : ¬ Overlap s.arg0.toNat s.arg1.toNat s.arg2.toNat (frameLen f s.arg1.toNat)) :
    exec (.seiBuild f t) s = complete .ok (zext32 (frameLen f s.arg1.toNat))
      { s with hmem := cellWriteList s.hmem s.arg2.toNat (seiFrame s f t) } :=
  (if_neg (Nat.not_lt.mpr hsize)).trans <| (if_neg (not_not.mpr hsrc)).trans <|
    (if_neg (not_not.mpr hdst)).trans (if_neg hdisjoint)

/-- Settles O47: the five branches of R232. Where the frame is stored, `seiFrame_eq` gives its bytes and
`memRead_cellWriteList_getD` every byte of HMEM. -/
theorem seiBuildWritesTheFrame : Obligations.SeiBuildWritesTheFrame := by
  refine ⟨fun f t => ?word, fun s f t h total hwf hh htotal hsize hsrc hdst hdisjoint => ?room,
    fun s f t total htotal => ?errors⟩
  case word =>
    rw [← decode_formatS, formatS_eq_or]
    cases f <;> rfl
  case room =>
    obtain rfl : h = nalHdr s.cfg f := by cases f <;> exact hh
    obtain rfl : total = frameLen f s.arg1.toNat := by rw [htotal, frameLen_eq, nalHdr_length]
    have hdisjoint' : ¬ Overlap s.arg0.toNat s.arg1.toNat s.arg2.toNat (frameLen f s.arg1.toNat) := by
      rintro ⟨hpayload, -, hlow, hhigh⟩
      omega
    refine ⟨_, _, exec_seiBuild_of_room t hsize hsrc hdst hdisjoint',
      zext32_toNat_of_lt (frameLen_lt_word hwf hdst hdisjoint'), fun a => ?_⟩
    rw [memRead_cellWriteList_getD, seiFrame_length, seiFrame_eq]
  case errors =>
    obtain rfl : total = frameLen f s.arg1.toNat := by
      rw [htotal, frameLen_eq]
      cases f <;> rfl
    refine ⟨exec_seiBuild_of_too_long t, fun hsize => ⟨fun hsrc => ?_, fun hsrc => ⟨fun hdst => ?_, ?overlap⟩⟩⟩
    · exact exec_seiBuild_of_payload_outside t hsize (Nat.not_le.mpr hsrc)
    · exact exec_seiBuild_of_output_outside t hsize hsrc (Nat.not_le.mpr hdst)
    case overlap =>
      intro hdst hpayload hlow hhigh
      have hpos : 0 < frameLen f s.arg1.toNat := by rw [frameLen_eq]; omega
      exact exec_seiBuild_of_overlap t hsize hsrc hdst ⟨hpayload, hpos, hlow, hhigh⟩

end Sys2Proof.SeiCommand

/-! PROOF. The encoder against the decoder (30_encoding.md part A). One way, the word of a command shows its row's pattern and
its fields read back; the other way, a word that selects a row is put together again from its opcode, its reserved bits, which
are 0, and its fields. -/

namespace Sys2Proof.EncodingRoundTrip

open Sys2Proof.Machine Sys2Proof.OpcodeMap Sys2Proof.SeiCommand Sys2Proof.Laws

/-! Decoding an encoding. -/

theorem fieldW_formatW (opc : Byte) {w : Nat} (hw : w ≤ 63) : fieldW (formatW opc w) = w := by
  have hfield : (formatW opc w).extractLsb' 0 6 = BitVec.ofNat 6 w := BitVec.extractLsb'_append_eq_right
  rw [fieldW, hfield, BitVec.toNat_ofNat, Nat.mod_eq_of_lt (by omega)]

theorem decode_encode_wPut {w : Nat} (hw : w ≤ 63) : decode (encode (.wPut w)) = .command (.wPut w) := by
  have hrow : decode (formatW 0x02 w) = .command (.wPut (fieldW (formatW 0x02 w))) :=
    decode_of_row 1 (hc := SelectsItsRow.formatW_put _)
  rwa [fieldW_formatW _ hw] at hrow

theorem decode_encode_rGetBits {n : Nat} (hn : n ≤ 63) :
    decode (encode (.rGetBits n)) = .command (.rGetBits n) := by
  have hrow : decode (formatW 0x11 n) = .command (.rGetBits (fieldW (formatW 0x11 n))) :=
    decode_of_row 9 (hc := SelectsItsRow.formatW_get _)
  rwa [fieldW_formatW _ hn] at hrow

/-- Settles O1: a command without fields has the word of its row; the fields of the others read back. -/
theorem decodeOfEncodeIsTheCommand : Obligations.DecodeOfEncodeIsTheCommand := by
  intro i hwf
  cases i with
  | wInit => exact decode_of_row 0 (hc := by decide)
  | wPut w => exact decode_encode_wPut (of_decide_eq_true hwf)
  | wPutUe => exact decode_of_row 2 (hc := by decide)
  | wPutSe => exact decode_of_row 3 (hc := by decide)
  | wAlignZero => exact decode_of_row 4 (hc := by decide)
  | wTell => exact decode_of_row 5 (hc := by decide)
  | wCopyOut => exact decode_of_row 6 (hc := by decide)
  | wClear => exact decode_of_row 7 (hc := by decide)
  | rInit => exact decode_of_row 8 (hc := by decide)
  | rGetBits n => exact decode_encode_rGetBits (of_decide_eq_true hwf)
  | rGetUe => exact decode_of_row 10 (hc := by decide)
  | rGetSe => exact decode_of_row 11 (hc := by decide)
  | rSkipBits => exact decode_of_row 12 (hc := by decide)
  | rBitsCount => exact decode_of_row 13 (hc := by decide)
  | rBitsLeft => exact decode_of_row 14 (hc := by decide)
  | seiBuild f t => exact decode_formatS f t

/-! Encoding what was decoded. -/

theorem decode_eq_command {c : Word} {i : Instr} (hdec : decode c = .command i) :
    ∃ r ∈ opcodeMap, r.selects c = true ∧ r.build c = i := by
  by_contra hnone
  have hill : ∃ why, decode c = .illegal why :=
    (decode_illegal_iff c).mpr fun ⟨r, hr, hc⟩ =>
      hnone ⟨r, hr, hc, by simpa using (decode_of_selects hr hc).symm.trans hdec⟩
  obtain ⟨why, hill⟩ := hill
  cases hdec.symm.trans hill

/-- The opcode, bits 31:24, as a byte. -/
theorem opcode_eq_of_toNat {c : Word} {opc : Byte} (hop : c.toNat / 2 ^ 24 = opc.toNat) : c.extractLsb' 24 8 = opc := by
  apply BitVec.eq_of_toNat_eq
  rw [BitVec.extractLsb'_toNat, Nat.shiftRight_eq_div_pow, hop, Nat.mod_eq_of_lt opc.isLt]

theorem formatW_fieldW {c : Word} {opc : Byte} (hop : c.toNat / 2 ^ 24 = opc.toNat)
    (hreserved : c.extractLsb' 6 18 = 0) : formatW opc (fieldW c) = c := by
  have hsplit : c.extractLsb' 24 8 ++ c.extractLsb' 6 18 ++ c.extractLsb' 0 6 = c := by
    rw [BitVec.extractLsb'_append_extractLsb'_eq_extractLsb' (show 24 = 6 + 18 from rfl),
      BitVec.extractLsb'_append_extractLsb'_eq_extractLsb' (show 6 = 0 + 6 from rfl), BitVec.extractLsb'_eq_self]
  rw [opcode_eq_of_toNat hop, hreserved] at hsplit
  rw [formatW, fieldW, BitVec.ofNat_toNat, BitVec.setWidth_eq]
  exact hsplit

theorem bit_fieldF (c : Word) : (fieldF c).bit = c.extractLsb' 8 1 := by
  have hbit : c.extractLsb' 8 1 = BitVec.ofBool (c.getLsbD 8) := by
    apply BitVec.eq_of_getLsbD_eq
    simp
  rw [hbit, fieldF]
  cases c.getLsbD 8 <;> rfl

theorem formatS_fields {c : Word} {opc : Byte} (hop : c.toNat / 2 ^ 24 = opc.toNat)
    (hreserved : c.extractLsb' 9 15 = 0) : formatS opc (fieldF c) (fieldT c) = c := by
  have hsplit : c.extractLsb' 24 8 ++ c.extractLsb' 9 15 ++ c.extractLsb' 8 1 ++ c.extractLsb' 0 8 = c := by
    rw [BitVec.extractLsb'_append_extractLsb'_eq_extractLsb' (show 24 = 9 + 15 from rfl),
      BitVec.extractLsb'_append_extractLsb'_eq_extractLsb' (show 9 = 8 + 1 from rfl),
      BitVec.extractLsb'_append_extractLsb'_eq_extractLsb' (show 8 = 0 + 8 from rfl), BitVec.extractLsb'_eq_self]
  rw [opcode_eq_of_toNat hop, hreserved, ← bit_fieldF] at hsplit
  exact hsplit

theorem fieldW_le (c : Word) : fieldW c ≤ 63 := by
  have hlt := (c.extractLsb' 0 6).isLt
  rw [fieldW]
  omega

/-- What the statement asks of a command that was decoded from the word `c`. -/
def EncodesBack (i : Instr) (c : Word) : Prop := i.wf = true ∧ encode i = c

/-- A row of format N builds one command, whose word is the row's pattern. -/
theorem encodesBack_of_formatN {p : Word} {i : Instr} (hp : EncodesBack i p) (c : Word)
    (hc : OpcodeRow.selects ⟨0xFFFFFFFF, p, fun _ => i⟩ c = true) : EncodesBack i c := by
  have hall : c &&& 0xFFFFFFFF = c := BitVec.and_allOnes
  have hcp : c &&& 0xFFFFFFFF = p := beq_iff_eq.mp hc
  rwa [← hall, hcp]

theorem encodesBack_wPut (c : Word) (hc : (opcodeMap[1]).selects c = true) : EncodesBack (.wPut (fieldW c)) c := by
  obtain ⟨hop, hlow⟩ := (selects_iff (List.getElem_mem _) c).mp hc
  exact ⟨decide_eq_true (fieldW_le c), formatW_fieldW hop ((masked_low_eq_zero_iff (k := 6) (by decide) c).mp hlow)⟩

theorem encodesBack_rGetBits (c : Word) (hc : (opcodeMap[9]).selects c = true) :
    EncodesBack (.rGetBits (fieldW c)) c := by
  obtain ⟨hop, hlow⟩ := (selects_iff (List.getElem_mem _) c).mp hc
  exact ⟨decide_eq_true (fieldW_le c), formatW_fieldW hop ((masked_low_eq_zero_iff (k := 6) (by decide) c).mp hlow)⟩

theorem encodesBack_seiBuild (c : Word) (hc : (opcodeMap[15]).selects c = true) :
    EncodesBack (.seiBuild (fieldF c) (fieldT c)) c := by
  obtain ⟨hop, hlow⟩ := (selects_iff (List.getElem_mem _) c).mp hc
  exact ⟨rfl, formatS_fields hop ((masked_low_eq_zero_iff (k := 9) (by decide) c).mp hlow)⟩

/-- Row by row: the command a row builds encodes to the word that selected the row. -/
theorem encodesBack_of_selects :
    ∀ r ∈ opcodeMap, ∀ c : Word, r.selects c = true → EncodesBack (r.build c) c := by
  have hN : ∀ {p : Word} {i : Instr}, i.wf = true → encode i = p → ∀ c : Word,
      OpcodeRow.selects ⟨0xFFFFFFFF, p, fun _ => i⟩ c = true → EncodesBack i c :=
    fun hwf henc => encodesBack_of_formatN ⟨hwf, henc⟩
  rw [opcodeMap]
  simp only [List.forall_mem_cons, List.not_mem_nil, false_imp_iff, implies_true, and_true]
  exact ⟨hN rfl rfl, encodesBack_wPut, hN rfl rfl, hN rfl rfl, hN rfl rfl, hN rfl rfl, hN rfl rfl, hN rfl rfl,
    hN rfl rfl, encodesBack_rGetBits, hN rfl rfl, hN rfl rfl, hN rfl rfl, hN rfl rfl, hN rfl rfl,
    encodesBack_seiBuild⟩

/-- Settles O2: a word that decodes selects the row that built its command. -/
theorem encodeOfDecodeIsTheWord : Obligations.EncodeOfDecodeIsTheWord := by
  intro c i hdec
  obtain ⟨r, hr, hc, rfl⟩ := decode_eq_command hdec
  exact encodesBack_of_selects r hr c hc

/-- Settles O5: each word selects its row, or none. -/
theorem specWordsDecodeAsListed : Obligations.SpecWordsDecodeAsListed := by
  unfold Obligations.SpecWordsDecodeAsListed
  decide

end Sys2Proof.EncodingRoundTrip

/-! PROOF. What a command can do, said once. Every command comes to a plan: an error code, or a completion with its code, its
RESULT and at most one effect, on the writer, on the reader or on a run of bytes of HMEM. `exec_eq_run_plan` ties the plan to
`exec`; `plan_spec` lists the plans there are; `plan_congr` says what a plan depends on. -/

namespace Sys2Proof.CommandPlans

open Sys2Proof.Machine Sys2Proof.WriterCommands Sys2Proof.ReaderCommands Sys2Proof.ExpGolombCommands Sys2Proof.SeiCommand

/-! Plans. -/

/-- What a command that completes leaves changed besides STATUS and RESULT. -/
inductive Effect
  | nothing
  | writer (bw : BitWriter)
  | reader (br : BitReader)
  /-- The bytes `l` stored in HMEM from address `d` up. -/
  | store (d : Nat) (l : List Byte)

/-- What a command comes to (60_exceptions.md R261). -/
inductive Plan
  | fail (e : ErrCode)
  | done (c : DoneCode) (r : Word) (eff : Effect)

def Effect.apply : Effect → State → State
  | .nothing, s => s
  | .writer bw, s => { s with bw := bw }
  | .reader br, s => { s with br := br }
  | .store d l, s => { s with hmem := cellWriteList s.hmem d l }

/-- The state a plan leaves: an error is precise, a completion has its one effect. -/
def Plan.after : Plan → State → State
  | .fail e, s => s.afterError (statusWord e.code)
  | .done c r eff, s => { eff.apply s with status := statusWord c.code, result := r }

/-- The effect of moving RCUR. -/
def cursorTo (s : State) (p : Nat) : Effect := .reader { s.br with cur := zext32 p }

/-- The plan of W_PUT_UE and W_PUT_SE for the value `u` (42_exp_golomb.md R201). -/
def planPutUe (u : Nat) (s : State) : Plan :=
  if ueMax < u then .fail .ueRange
  else if ¬ Fits s (ueLen u) then .fail .nomem
  else .done .ok 0 (.writer (emitUe u s.bw))

/-- The plan of R_GET_UE and R_GET_SE, given what RESULT shows of a value (42_exp_golomb.md R204, R205). -/
def planGetUe (shown : Nat → Word) (s : State) : Plan :=
  match s.readUe with
  | .guard p => .done .ueGuard (shown 0) (cursorTo s p)
  | .overrun => .fail .overrun
  | .value u p => .done .ok (shown u) (cursorTo s p)

/-- The plan of each command. -/
def plan (i : Instr) (s : State) : Plan :=
  match i with
  | .wInit | .wClear => .done .ok 0 (.writer s.bw.emptied)
  | .wPut w =>
    if 32 < w then .fail .width
    else if ¬ Fits s w then .fail .nomem
    else .done .ok 0 (.writer (emitBits (s.arg0.toNat % 2 ^ w) w s.bw))
  | .wPutUe => planPutUe s.arg0.toNat s
  | .wPutSe => planPutUe (zz s.arg0.toInt) s
  | .wAlignZero =>
    if s.bw.pb = 0 then .done .ok 0 .nothing
    else if ¬ Fits s (8 - s.bw.pb) then .fail .nomem
    else .done .ok 0 (.writer (emitBits 0 (8 - s.bw.pb) s.bw))
  | .wTell => .done .ok (zext32 s.bw.tell) .nothing
  | .wCopyOut =>
    if ¬ InRange s.cfg s.arg0.toNat s.bw.wcnt then .fail .range
    else .done .ok (zext32 s.bw.wcnt) (.store s.arg0.toNat s.bw.committed)
  | .rInit =>
    if ¬ InRange s.cfg s.arg0.toNat (ceil8 s.arg1.toNat) then .fail .range
    else .done .ok 0 (.reader { base := s.arg0, bits := s.arg1, cur := 0 })
  | .rGetBits n =>
    if 32 < n then .fail .width
    else if s.br.bits.toNat < s.br.cur.toNat + n then .fail .overrun
    else .done .ok (zext32 (s.readField s.br.cur.toNat n)) (cursorTo s (s.br.cur.toNat + n))
  | .rGetUe => planGetUe zext32 s
  | .rGetSe => planGetUe (fun u => twos32 (izz u)) s
  | .rSkipBits =>
    if s.br.bits.toNat < s.br.cur.toNat + s.arg0.toNat then .done .skipNop 0 .nothing
    else .done .ok 0 (cursorTo s (s.br.cur.toNat + s.arg0.toNat))
  | .rBitsCount => .done .ok s.br.cur .nothing
  | .rBitsLeft => .done .ok (s.br.bits - s.br.cur) .nothing
  | .seiBuild f t =>
    if s.cfg.seiMaxBytes < frameLen f s.arg1.toNat then .fail .seiSize
    else if ¬ InRange s.cfg s.arg0.toNat s.arg1.toNat then .fail .range
    else if ¬ InRange s.cfg s.arg2.toNat (frameLen f s.arg1.toNat) then .fail .range
    else if Overlap s.arg0.toNat s.arg1.toNat s.arg2.toNat (frameLen f s.arg1.toNat) then .fail .overlap
    else .done .ok (zext32 (frameLen f s.arg1.toNat)) (.store s.arg2.toNat (seiFrame s f t))

theorem next_after_ite (p : Prop) [Decidable p] (a b : Plan) (s : State) :
    (.next ((if p then a else b).after s) : Host.Outcome State Fault Refusal) =
      if p then .next (a.after s) else .next (b.after s) := apply_ite (fun q : Plan => Host.Outcome.next (q.after s)) p a b

theorem putUe_eq_after (u : Nat) (s : State) : putUe u s = .next ((planPutUe u s).after s) := by
  rw [planPutUe, next_after_ite, next_after_ite]
  rfl

theorem execRGetUe_eq_after (s : State) : execRGetUe s = .next ((planGetUe zext32 s).after s) := by
  rw [execRGetUe, planGetUe]
  cases s.readUe <;> rfl

theorem execRGetSe_eq_after (s : State) : execRGetSe s = .next ((planGetUe (fun u => twos32 (izz u)) s).after s) := by
  rw [execRGetSe, planGetUe]
  cases s.readUe <;> rfl

/-- Every command carries out its plan. -/
theorem exec_eq_after_plan (i : Instr) (s : State) : exec i s = .next ((plan i s).after s) := by
  cases i with
  | wPutUe | wPutSe => exact putUe_eq_after _ s
  | rGetUe => exact execRGetUe_eq_after s
  | rGetSe => exact execRGetSe_eq_after s
  | wPut _ | wAlignZero | wCopyOut | rInit | rGetBits _ | rSkipBits | seiBuild _ _ =>
    simp only [plan, next_after_ite]
    rfl
  | wInit | wClear | wTell | rBitsCount | rBitsLeft => rfl

theorem eq_after_of_exec {i : Instr} {s t : State} (hexec : exec i s = .next t) : t = (plan i s).after s := by
  rw [exec_eq_after_plan] at hexec
  injection hexec with h
  exact h.symm

/-! What no plan changes, and what every plan does to STATUS and DIAG_COUNT. -/

theorem after_frame (p : Plan) (s : State) :
    (p.after s).cmd = s.cmd ∧ (p.after s).arg0 = s.arg0 ∧ (p.after s).arg1 = s.arg1 ∧ (p.after s).arg2 = s.arg2 ∧
    (p.after s).cfg = s.cfg ∧ (p.after s).inReset = s.inReset ∧ (p.after s).hostq = s.hostq ∧
    (p.after s).hostData = s.hostData := by
  cases p with
  | fail e => exact ⟨rfl, rfl, rfl, rfl, rfl, rfl, rfl, rfl⟩
  | done c r eff => cases eff <;> exact ⟨rfl, rfl, rfl, rfl, rfl, rfl, rfl, rfl⟩

theorem after_diagCount_of_done (c : DoneCode) (r : Word) (eff : Effect) (s : State) :
    ((Plan.done c r eff).after s).diagCount = s.diagCount := by
  cases eff <;> rfl

theorem errCode_status_ge (e : ErrCode) : 0x10 ≤ (statusWord e.code).toNat := by cases e <;> decide

theorem doneCode_status_lt (c : DoneCode) : (statusWord c.code).toNat < 0x10 := by cases c <;> decide

theorem after_status_ge_of_fail (e : ErrCode) (s : State) : 0x10 ≤ ((Plan.fail e).after s).status.toNat :=
  errCode_status_ge e

theorem after_status_lt_of_done (c : DoneCode) (r : Word) (eff : Effect) (s : State) :
    ((Plan.done c r eff).after s).status.toNat < 0x10 := doneCode_status_lt c

/-- An error is precise and counted; a completion is not counted (60_exceptions.md R261). -/
theorem after_precise (p : Plan) (s : State) :
    (0x10 ≤ (p.after s).status.toNat ∧
      p.after s = { s with status := (p.after s).status, result := 0, diagCount := s.diagCount + 1 }) ∨
    ((p.after s).status.toNat < 0x10 ∧ (p.after s).diagCount = s.diagCount) := by
  cases p with
  | fail e => exact .inl ⟨after_status_ge_of_fail e s, rfl⟩
  | done c r eff => exact .inr ⟨after_status_lt_of_done c r eff s, after_diagCount_of_done c r eff s⟩

/-- Settles O21: no plan has an effect on the operands or the host's part. -/
theorem commandsKeepOperandsAndHost : Obligations.CommandsKeepOperandsAndHost := by
  intro i s t hexec
  rw [eq_after_of_exec hexec]
  exact after_frame _ s

/-- Settles O18: every plan is an error or a completion. -/
theorem errorsArePreciseAndCounted : Obligations.ErrorsArePreciseAndCounted := by
  intro i s t hexec
  rw [eq_after_of_exec hexec]
  exact after_precise _ s

/-! The plans there are. -/

/-- The commands that may change the writer (40_bit_writer.md section 2). -/
def ChangesWriter (i : Instr) : Prop := i.isWriter = true ∧ i ≠ .wTell ∧ i ≠ .wCopyOut

/-- The commands that may change the reader (41_bit_reader.md section 2). -/
def ChangesReader (i : Instr) : Prop := i.isReader = true ∧ i ≠ .rBitsCount ∧ i ≠ .rBitsLeft

/-- The writer `bw` is the state's with `n` bits more: TELL grows by `n`, the committed bytes stay, the invariants hold. -/
structure Appends (s : State) (bw : BitWriter) (n : Nat) : Prop where
  tell : bw.tell = s.bw.tell + n
  keeps : s.bw.wcnt ≤ bw.wcnt ∧ ∀ k < s.bw.wcnt, bw.byte k = s.bw.byte k
  ok : s.bw.Ok s.wbufCap → bw.Ok s.wbufCap

theorem emitBits_appends {s : State} {w : Nat} (v : Nat) (hfits : Fits s w) : Appends s (emitBits v w s.bw) w :=
  ⟨emitBits_tell v w s.bw, emitBits_keeps v w s.bw, fun hok => emitBits_ok v w hok hfits⟩

theorem emitUe_appends {s : State} {u : Nat} (hfits : Fits s (ueLen u)) : Appends s (emitUe u s.bw) (ueLen u) :=
  ⟨emitUe_tell u s.bw, emitUe_keeps u s.bw, fun hok => emitUe_ok hok hfits⟩

/-- The plans a command can come to in a state. -/
inductive PlanSpec (i : Instr) (s : State) : Plan → Prop
  | fail {e : ErrCode} (hcode : e.code ∈ reportedCodes i) : PlanSpec i s (.fail e)
  | report {c : DoneCode} {r : Word} (hcode : c.code ∈ reportedCodes i) (hbits : appendedBits i s = 0) :
      PlanSpec i s (.done c r .nothing)
  | empty (hi : i = .wInit ∨ i = .wClear) : PlanSpec i s (.done .ok 0 (.writer s.bw.emptied))
  | append {bw : BitWriter} (hi : ChangesWriter i) (happ : Appends s bw (appendedBits i s)) :
      PlanSpec i s (.done .ok 0 (.writer bw))
  | reader {c : DoneCode} {r : Word} {br : BitReader} (hcode : c.code ∈ reportedCodes i)
      (hbits : appendedBits i s = 0) (hi : ChangesReader i) (hok : s.br.Ok s.cfg → br.Ok s.cfg) : PlanSpec i s (.done c r (.reader br))
  | store {r : Word} {d : Nat} {l : List Byte} (hbits : appendedBits i s = 0) (hi : i.mayWriteHmem = true)
      (hin : d + l.length ≤ s.cfg.hmemBytes) : PlanSpec i s (.done .ok r (.store d l))

theorem ok_code_mem_reportedCodes (i : Instr) : DoneCode.ok.code ∈ reportedCodes i := by
  cases i <;> exact List.mem_cons_self

theorem movedReader_ok {p : Config.Params} {br : BitReader} {cur : Nat} (hcur : cur ≤ br.bits.toNat) (hok : br.Ok p) :
    BitReader.Ok p { br with cur := zext32 cur } :=
  ⟨(zext32_toNat_of_le hcur).trans_le hcur, hok.inside⟩

theorem attachedReader_ok {p : Config.Params} {base bits : Word} (hin : InRange p base.toNat (ceil8 bits.toNat)) :
    BitReader.Ok p { base := base, bits := bits, cur := 0 } := ⟨Nat.zero_le _, hin⟩

theorem PlanSpec.cursorTo {i : Instr} {s : State} {c : DoneCode} {r : Word} {p : Nat}
    (hcode : c.code ∈ reportedCodes i) (hbits : appendedBits i s = 0) (hi : ChangesReader i)
    (hp : p ≤ s.br.bits.toNat) : PlanSpec i s (.done c r (cursorTo s p)) :=
  .reader hcode hbits hi (movedReader_ok hp)

theorem planPutUe_spec {i : Instr} {s : State} {u : Nat} (hi : ChangesWriter i)
    (hcodes : reportedCodes i = [0x00, 0x12, 0x13]) (hbits : appendedBits i s = ueLen u) :
    PlanSpec i s (planPutUe u s) := by
  rw [planPutUe]
  split
  · exact .fail (by simp [hcodes, ErrCode.code])
  · split
    · exact .fail (by simp [hcodes, ErrCode.code])
    · next hfits => exact .append hi (hbits ▸ emitUe_appends (not_not.mp hfits))

theorem readUe_position_le {s : State} {p : Nat} (h : s.readUe = .guard p ∨ ∃ u, s.readUe = .value u p) :
    p ≤ s.br.bits.toNat := by
  obtain ⟨hall, hread⟩ | ⟨-, -, -, -, hread⟩ | ⟨k, -, -, -, -, ⟨-, hread⟩ | ⟨hinside, hread⟩⟩ := readUe_cases s
  · have hlast := (hall 31 (by decide)).1
    simp only [hread, UeRead.guard.injEq, reduceCtorEq, exists_false, or_false] at h
    omega
  · simp [hread] at h
  · simp [hread] at h
  · simp only [hread, reduceCtorEq, UeRead.value.injEq, exists_and_right, exists_eq', true_and, false_or] at h
    omega

theorem planGetUe_spec {i : Instr} {s : State} (shown : Nat → Word) (hi : ChangesReader i)
    (hcodes : reportedCodes i = [0x00, 0x02, 0x14]) (hbits : appendedBits i s = 0) :
    PlanSpec i s (planGetUe shown s) := by
  rw [planGetUe]
  cases hread : s.readUe with
  | guard p => exact .cursorTo (by simp [hcodes, DoneCode.code]) hbits hi (readUe_position_le (.inl hread))
  | overrun => exact .fail (by simp [hcodes, ErrCode.code])
  | value u p => exact .cursorTo (by simp [hcodes, DoneCode.code]) hbits hi (readUe_position_le (.inr ⟨u, hread⟩))

/-- Every command's plan is one of those (60_exceptions.md R262; the units' sections 2). -/
theorem plan_spec (i : Instr) (s : State) : PlanSpec i s (plan i s) := by
  have hok := ok_code_mem_reportedCodes i
  cases i with
  | wInit => exact .empty (.inl rfl)
  | wClear => exact .empty (.inr rfl)
  | wPut w =>
    rw [plan]
    split
    · exact .fail (by simp [reportedCodes, ErrCode.code])
    · split
      · exact .fail (by simp [reportedCodes, ErrCode.code])
      · next hfits => exact .append ⟨rfl, nofun, nofun⟩ (emitBits_appends _ (not_not.mp hfits))
  | wPutUe => exact planPutUe_spec ⟨rfl, nofun, nofun⟩ rfl rfl
  | wPutSe => exact planPutUe_spec ⟨rfl, nofun, nofun⟩ rfl rfl
  | wAlignZero =>
    rw [plan]
    split
    · next haligned => exact .report hok (if_pos haligned)
    · next hpending =>
      have hbits : appendedBits .wAlignZero s = 8 - s.bw.pb := if_neg hpending
      split
      · exact .fail (by simp [reportedCodes, ErrCode.code])
      · next hfits =>
        exact .append ⟨rfl, nofun, nofun⟩ (by rw [hbits]; exact emitBits_appends 0 (not_not.mp hfits))
  | wTell => exact .report hok rfl
  | wCopyOut =>
    rw [plan]
    split
    · exact .fail (by simp [reportedCodes, ErrCode.code])
    · next hin => exact .store rfl rfl (by simpa using hin)
  | rInit =>
    rw [plan]
    split
    · exact .fail (by simp [reportedCodes, ErrCode.code])
    · next hin =>
      exact .reader hok rfl ⟨rfl, nofun, nofun⟩ fun _ => attachedReader_ok (not_not.mp hin)
  | rGetBits n =>
    rw [plan]
    split
    · exact .fail (by simp [reportedCodes, ErrCode.code])
    · split
      · exact .fail (by simp [reportedCodes, ErrCode.code])
      · next hinside =>
        exact .cursorTo hok rfl ⟨rfl, nofun, nofun⟩ (Nat.not_lt.mp hinside)
  | rGetUe => exact planGetUe_spec zext32 ⟨rfl, nofun, nofun⟩ rfl rfl
  | rGetSe => exact planGetUe_spec (fun u => twos32 (izz u)) ⟨rfl, nofun, nofun⟩ rfl rfl
  | rSkipBits =>
    rw [plan]
    split
    · exact .report (by simp [reportedCodes, DoneCode.code]) rfl
    · next hinside => exact .cursorTo hok rfl ⟨rfl, nofun, nofun⟩ (Nat.not_lt.mp hinside)
  | rBitsCount => exact .report hok rfl
  | rBitsLeft => exact .report hok rfl
  | seiBuild f t =>
    rw [plan]
    split
    · exact .fail (by simp [reportedCodes, ErrCode.code])
    split
    · exact .fail (by simp [reportedCodes, ErrCode.code])
    split
    · exact .fail (by simp [reportedCodes, ErrCode.code])
    · next hdst =>
      split
      · exact .fail (by simp [reportedCodes, ErrCode.code])
      · exact .store rfl rfl (by rw [seiFrame_length]; exact not_not.mp hdst)

/-! What follows from the list of plans. -/

theorem statusWord_eq_setWidth (b : Byte) : statusWord b = b.setWidth 32 := by
  revert b; decide

theorem after_status_mem {i : Instr} {s : State} {p : Plan} (hspec : PlanSpec i s p) :
    ∃ c ∈ reportedCodes i, (p.after s).status = c.setWidth 32 := by
  cases hspec with
  | fail hcode => exact ⟨_, hcode, statusWord_eq_setWidth _⟩
  | report hcode _ => exact ⟨_, hcode, statusWord_eq_setWidth _⟩
  | reader hcode _ _ _ => exact ⟨_, hcode, statusWord_eq_setWidth _⟩
  | empty _ | append _ _ | store _ _ _ => exact ⟨_, ok_code_mem_reportedCodes i, statusWord_eq_setWidth _⟩

/-- Settles O19: every plan's code is one of the command's. -/
theorem commandsReportOnlyTheirCodes : Obligations.CommandsReportOnlyTheirCodes := by
  intro i s t hexec
  rw [eq_after_of_exec hexec]
  exact after_status_mem (plan_spec i s)

theorem after_hmem {i : Instr} {s : State} {p : Plan} (hspec : PlanSpec i s p) (hi : i.mayWriteHmem = false) :
    (p.after s).hmem = s.hmem := by
  cases hspec with
  | store _ hstores _ => exact absurd (hi.symm.trans hstores) Bool.false_ne_true
  | _ => rfl

theorem after_bw {i : Instr} {s : State} {p : Plan} (hspec : PlanSpec i s p) (hi : ¬ ChangesWriter i) :
    (p.after s).bw = s.bw := by
  cases hspec with
  | empty hempty => exact absurd (by rcases hempty with rfl | rfl <;> exact ⟨rfl, nofun, nofun⟩) hi
  | append hwrites _ => exact absurd hwrites hi
  | _ => rfl

theorem after_br {i : Instr} {s : State} {p : Plan} (hspec : PlanSpec i s p) (hi : ¬ ChangesReader i) :
    (p.after s).br = s.br := by
  cases hspec with
  | reader _ _ hreads _ => exact absurd hreads hi
  | _ => rfl

/-- Settles O22: a plan has an effect on one unit at most, and only its own commands have one on it. -/
theorem unitsKeepToTheirState : Obligations.UnitsKeepToTheirState := by
  intro i s t hexec
  rw [eq_after_of_exec hexec]
  have hspec := plan_spec i s
  refine ⟨fun hi => ?hmem, fun hi => after_bw hspec ?bw, fun hi => after_br hspec ?br⟩
  case hmem =>
    have hsame := after_hmem hspec hi
    exact ⟨hsame, fun a => by rw [State.memRead, State.memRead, hsame]⟩
  case bw =>
    rintro ⟨hwriter, htell, hcopy⟩
    simp [hwriter, htell, hcopy] at hi
  case br =>
    rintro ⟨hreader, hcount, hleft⟩
    simp [hreader, hcount, hleft] at hi

theorem after_keeps_committed {i : Instr} {s : State} {p : Plan} (hspec : PlanSpec i s p)
    (hi : ¬ (i = .wInit ∨ i = .wClear)) :
    s.bw.wcnt ≤ (p.after s).bw.wcnt ∧ ∀ k < s.bw.wcnt, (p.after s).bw.byte k = s.bw.byte k := by
  cases hspec with
  | empty hempty => exact absurd hempty hi
  | append _ happ => exact happ.keeps
  | _ => exact ⟨le_rfl, fun _ _ => rfl⟩

/-- Settles O23: a plan for the writer empties it or appends to it. -/
theorem committedBytesAreNeverRewritten : Obligations.CommittedBytesAreNeverRewritten := by
  intro i s t hexec hinit hclear
  rw [eq_after_of_exec hexec]
  exact after_keeps_committed (plan_spec i s) (not_or.mpr ⟨hinit, hclear⟩)

theorem after_tell_of_done {i : Instr} {s : State} {c : DoneCode} {r : Word} {eff : Effect}
    (hspec : PlanSpec i s (.done c r eff)) (hi : ¬ (i = .wInit ∨ i = .wClear)) :
    ((Plan.done c r eff).after s).bw.tell = s.bw.tell + appendedBits i s := by
  cases hspec with
  | empty hempty => exact absurd hempty hi
  | append _ happ => exact happ.tell
  | report _ hbits | reader _ hbits _ _ | store hbits _ _ => rw [hbits]; rfl

/-- Settles O24: a plan that completes appends the command's bits, and one that fails none. -/
theorem tellCountsTheBitsAppended : Obligations.TellCountsTheBitsAppended := by
  intro i s t hexec
  rw [eq_after_of_exec hexec]
  refine ⟨fun hinit hclear => ?grows, fun hi => by rcases hi with rfl | rfl <;> rfl⟩
  case grows =>
    have hspec := plan_spec i s
    generalize plan i s = p at hspec
    cases p with
    | fail e => rw [if_neg (Nat.not_lt.mpr (after_status_ge_of_fail e s))]; rfl
    | done c r eff =>
      rw [if_pos (after_status_lt_of_done c r eff s)]
      exact after_tell_of_done hspec (not_or.mpr ⟨hinit, hclear⟩)

/-! The invariant. -/

theorem statusOk_of_done (c : DoneCode) : StatusOk (statusWord c.code) := .inl ⟨c, rfl⟩

theorem afterError_inv {s : State} (e : ErrCode) (hinv : BlockInv s) : BlockInv (s.afterError (statusWord e.code)) :=
  ⟨hinv.params, hinv.writer, hinv.reader, hinv.memory, .inr ⟨e, rfl⟩⟩

theorem emptied_ok {cap : Nat} {bw : BitWriter} (hok : bw.Ok cap) : bw.emptied.Ok cap where
  pb_le := Nat.zero_le _
  sr_lt := Nat.one_pos
  wcnt_le := Nat.zero_le _
  wbuf_wf := hok.wbuf_wf
  wbuf_inside := hok.wbuf_inside
  wbuf_held := fun k hk => absurd hk (Nat.not_lt_zero k)

theorem stored_ok {p : Config.Params} {m : Memory} {d : Nat} {l : List Byte} (hin : d + l.length ≤ p.hmemBytes)
    (hok : m.Ok p) : Memory.Ok p (cellWriteList m d l) :=
  ⟨cellWriteList_wf d l hok.wf, cellWriteList_inside hin hok.inside⟩

theorem after_inv {i : Instr} {s : State} {p : Plan} (hspec : PlanSpec i s p) (hinv : BlockInv s) :
    BlockInv (p.after s) := by
  cases hspec with
  | fail _ => exact afterError_inv _ hinv
  | report _ _ => exact ⟨hinv.params, hinv.writer, hinv.reader, hinv.memory, statusOk_of_done _⟩
  | empty _ => exact ⟨hinv.params, emptied_ok hinv.writer, hinv.reader, hinv.memory, statusOk_of_done _⟩
  | append _ happ => exact ⟨hinv.params, happ.ok hinv.writer, hinv.reader, hinv.memory, statusOk_of_done _⟩
  | reader _ _ _ hok => exact ⟨hinv.params, hinv.writer, hok hinv.reader, hinv.memory, statusOk_of_done _⟩
  | store _ _ hin => exact ⟨hinv.params, hinv.writer, hinv.reader, stored_ok hin hinv.memory, statusOk_of_done _⟩

/-- Settles O17: every command carries out a plan, and every plan keeps the invariant. -/
theorem everyCommandLeavesTheBlockReady : Obligations.EveryCommandLeavesTheBlockReady :=
  fun i s => ⟨_, exec_eq_after_plan i s, after_inv (plan_spec i s)⟩

/-! What a plan depends on. -/

/-- The states `s` and `s'` show a command the same inputs: parameters, units, the operands it reads (30_encoding.md R94) and
the bytes of HMEM it reads, which are those of the read buffer for a reader command (41_bit_reader.md R170). -/
structure SameInputs (i : Instr) (s s' : State) : Prop where
  cfg : s'.cfg = s.cfg
  bw : s'.bw = s.bw
  br : s'.br = s.br
  arg0 : 1 ≤ i.operandCount → s'.arg0 = s.arg0
  arg1 : 2 ≤ i.operandCount → s'.arg1 = s.arg1
  arg2 : 3 ≤ i.operandCount → s'.arg2 = s.arg2
  buffer : ∀ p < s.br.bits.toNat, s'.rdBit p = s.rdBit p
  hmem : i.isReader = false → s'.hmem = s.hmem

theorem readField_congr {s s' : State} {p n : Nat} (hbits : ∀ q < p + n, s'.rdBit q = s.rdBit q) :
    s'.readField p n = s.readField p n := by
  induction n with
  | zero => rfl
  | succ n ih => rw [State.readField, State.readField, ih fun q hq => hbits q (by omega), hbits (p + n) (by omega)]

theorem scanZeros_congr {s s' : State} (hbr : s'.br = s.br) (hbits : ∀ p < s.br.bits.toNat, s'.rdBit p = s.rdBit p)
    (left p zeros : Nat) : s'.scanZeros left p zeros = s.scanZeros left p zeros := by
  induction left generalizing p zeros with
  | zero => rfl
  | succ left ih =>
    rw [State.scanZeros, State.scanZeros, hbr, ih]
    by_cases hend : s.br.bits.toNat ≤ p
    · rw [if_pos hend, if_pos hend]
    · rw [hbits p (Nat.not_le.mp hend)]

theorem readUe_congr {s s' : State} (hbr : s'.br = s.br) (hbits : ∀ p < s.br.bits.toNat, s'.rdBit p = s.rdBit p) :
    s'.readUe = s.readUe := by
  rw [State.readUe, State.readUe, hbr, scanZeros_congr hbr hbits]
  cases s.scanZeros 32 s.br.cur.toNat 0 with
  | guard p | overrun => rfl
  | one p zeros =>
    refine ite_congr rfl (fun _ => rfl) fun hinside => ?_
    rw [readField_congr fun q hq => hbits q (by omega)]

theorem planGetUe_congr {s s' : State} (shown : Nat → Word) (hbr : s'.br = s.br)
    (hbits : ∀ p < s.br.bits.toNat, s'.rdBit p = s.rdBit p) : planGetUe shown s' = planGetUe shown s := by
  rw [planGetUe, planGetUe, readUe_congr hbr hbits]
  simp only [cursorTo, hbr]

theorem fits_congr {s s' : State} (hcfg : s'.cfg = s.cfg) (hbw : s'.bw = s.bw) (n : Nat) : Fits s' n ↔ Fits s n := by
  rw [Fits, Fits, State.wbufCap, State.wbufCap, hcfg, hbw]

theorem planPutUe_congr {s s' : State} (u : Nat) (hcfg : s'.cfg = s.cfg) (hbw : s'.bw = s.bw) :
    planPutUe u s' = planPutUe u s := by
  simp only [planPutUe, fits_congr hcfg hbw, hbw]

/-- A command's plan depends on its inputs alone (10_state.md R23, R26, R29; 30_encoding.md R94; 41_bit_reader.md R170). -/
theorem plan_congr {i : Instr} {s s' : State} (h : SameInputs i s s') : plan i s' = plan i s := by
  obtain ⟨hcfg, hbw, hbr, harg0, harg1, harg2, hbuffer, hhmem⟩ := h
  cases i with
  | wInit | wClear | wTell => simp only [plan, hbw]
  | wPut w => simp only [plan, fits_congr hcfg hbw, hbw, harg0 le_rfl]
  | wPutUe | wPutSe => simp only [plan, harg0 le_rfl, planPutUe_congr _ hcfg hbw]
  | wAlignZero => simp only [plan, fits_congr hcfg hbw, hbw]
  | wCopyOut => simp only [plan, hcfg, hbw, harg0 le_rfl]
  | rInit => simp only [plan, hcfg, harg0 (by decide), harg1 le_rfl]
  | rGetBits n =>
    simp only [plan, cursorTo, hbr]
    refine ite_congr rfl (fun _ => rfl) fun _ => ite_congr rfl (fun _ => rfl) fun hinside => ?_
    rw [readField_congr fun q hq => hbuffer q (by omega)]
  | rGetUe => exact planGetUe_congr zext32 hbr hbuffer
  | rGetSe => exact planGetUe_congr (fun u => twos32 (izz u)) hbr hbuffer
  | rSkipBits => simp only [plan, cursorTo, hbr, harg0 le_rfl]
  | rBitsCount | rBitsLeft => simp only [plan, hbr]
  | seiBuild f t =>
    simp only [plan, seiFrame, State.memReadList, State.memRead, hcfg, harg0 (by decide : 1 ≤ 3),
      harg1 (by decide : 2 ≤ 3), harg2 (by decide : 3 ≤ 3), hhmem rfl]

/-- Settles O25: STATUS, RESULT and CMD are no input of a command, and a plan writes the first two over. -/
theorem noCommandReadsStatus : Obligations.NoCommandReadsStatus := by
  intro i s t status result cmd hexec
  rw [eq_after_of_exec hexec]
  refine ⟨after_status_mem (plan_spec i s), ?_⟩
  have hsame : SameInputs i s { s with status := status, result := result, cmd := cmd } :=
    ⟨rfl, rfl, rfl, fun _ => rfl, fun _ => rfl, fun _ => rfl, fun _ _ => rfl, fun _ => rfl⟩
  rw [exec_eq_after_plan, plan_congr hsame]
  cases plan i s with
  | fail e => rfl
  | done c r eff => cases eff <;> rfl

theorem after_set_args (p : Plan) (s : State) (a b c : Word) :
    p.after { s with arg0 := a, arg1 := b, arg2 := c } = { p.after s with arg0 := a, arg1 := b, arg2 := c } := by
  cases p with
  | fail e => rfl
  | done c r eff => cases eff <;> rfl

/-- New operands that differ in no ARG register the command reads give the old plan. -/
theorem exec_set_args {i : Instr} {s t : State} {a b c : Word} (hexec : exec i s = .next t)
    (ha : 1 ≤ i.operandCount → a = s.arg0) (hb : 2 ≤ i.operandCount → b = s.arg1)
    (hc : 3 ≤ i.operandCount → c = s.arg2) :
    exec i { s with arg0 := a, arg1 := b, arg2 := c } = .next { t with arg0 := a, arg1 := b, arg2 := c } := by
  have hsame : SameInputs i s { s with arg0 := a, arg1 := b, arg2 := c } :=
    ⟨rfl, rfl, rfl, ha, hb, hc, fun _ _ => rfl, fun _ => rfl⟩
  rw [eq_after_of_exec hexec, exec_eq_after_plan, plan_congr hsame, after_set_args]

/-- Settles O26: each clause sets the ARG registers that its commands do not read. -/
theorem commandsReadOnlyTheirOperands : Obligations.CommandsReadOnlyTheirOperands := by
  intro i s t a b c hexec
  obtain ⟨-, harg0, harg1, -⟩ := after_frame (plan i s) s
  rw [← eq_after_of_exec hexec] at harg0 harg1
  refine ⟨fun hcount => ?one, fun hcount => ?two, fun hcount => ?three⟩
  case one =>
    exact (exec_set_args hexec (fun _ => rfl) (fun _ => rfl) (by omega)).trans (by rw [← harg0, ← harg1])
  case two =>
    exact (exec_set_args hexec (fun _ => rfl) (by omega) (by omega)).trans (by rw [← harg0])
  case three => exact exec_set_args hexec (by omega) (by omega) (by omega)

theorem ceil8_covers {p bits : Nat} (hp : p < bits) : p / 8 < (bits + 7) / 8 := by omega

/-- A plan that stores nothing leaves HMEM as it finds it. -/
theorem after_set_hmem {i : Instr} {s : State} {p : Plan} (hspec : PlanSpec i s p) (hi : i.mayWriteHmem = false)
    (m : Memory) : p.after { s with hmem := m } = { p.after s with hmem := m } := by
  cases hspec with
  | store _ hstores _ => exact absurd (hi.symm.trans hstores) Bool.false_ne_true
  | _ => rfl

theorem mayWriteHmem_of_isReader {i : Instr} (hreader : i.isReader = true) : i.mayWriteHmem = false := by
  cases i with
  | wCopyOut | seiBuild _ _ => cases hreader
  | _ => rfl

/-- Settles O27: bit `p` of the buffer is in its byte `p / 8`, and a reader command stores nothing. -/
theorem readsStayInsideTheBuffer : Obligations.ReadsStayInsideTheBuffer := by
  intro i s t m hreader hexec hbytes
  have hbuffer : ∀ p < s.br.bits.toNat, ({ s with hmem := m } : State).rdBit p = s.rdBit p := by
    intro p hp
    have hbyte := hbytes (s.br.base.toNat + p / 8) (Nat.le_add_right _ _) (Nat.add_lt_add_left (ceil8_covers hp) _)
    rw [State.rdBit, State.rdBit]
    exact congrArg (fun b : Byte => b.toNat / 2 ^ (7 - p % 8) % 2 == 1) hbyte
  have hsame : SameInputs i s { s with hmem := m } :=
    ⟨rfl, rfl, rfl, fun _ => rfl, fun _ => rfl, fun _ => rfl, hbuffer, fun hno => by rw [hreader] at hno; cases hno⟩
  rw [eq_after_of_exec hexec, exec_eq_after_plan, plan_congr hsame,
    after_set_hmem (plan_spec i s) (mayWriteHmem_of_isReader hreader)]

end Sys2Proof.CommandPlans

/-! PROOF. The step and the host (10_state.md sections 2, 5 and 6, 70_reset_and_hazards.md section 1). What each action of the
host comes to is said once per action; `step_cases` lists what a step can do, and the invariant follows from the list. -/

namespace Sys2Proof.HostSteps

open Sys2Proof.Machine Sys2Proof.OpcodeMap Sys2Proof.WriterCommands Sys2Proof.ReaderCommands
  Sys2Proof.ExpGolombCommands Sys2Proof.CommandPlans

/-! One step. -/

/-- What a host action's effect comes to. -/
def settled : HostEffect → Host.Outcome State Fault Refusal
  | .outcome o => o
  | .command c s => runCommand c s

theorem step_idle {s : State} (hq : s.hostq = []) : step s = .next s := by rw [step, hq]

theorem step_of_hostq {s : State} {a : HostAction} {rest : List HostAction} (hq : s.hostq = a :: rest) :
    step s = settled (hostAct a { s with hostq := rest }) := by
  simp only [step, hq]
  cases hostAct a { s with hostq := rest } <;> rfl

theorem step_of_effect {s : State} {a : HostAction} {rest : List HostAction} {e : HostEffect}
    (hq : s.hostq = a :: rest) (heffect : hostAct a { s with hostq := rest } = e) : step s = settled e :=
  (step_of_hostq hq).trans (congrArg settled heffect)

/-! The register window (10_state.md R27). -/

theorem regAccess_inside (p : Config.Params) {offset : Nat} (hle : offset ≤ 0x3C) (halign : offset % 4 = 0) :
    regAccess p (p.regBase + offset) 4 = .ok (regAt offset) := by
  rw [regAccess, if_neg (by omega), Nat.add_sub_cancel_left, if_neg (by omega)]

theorem regAccess_outside {p : Config.Params} {addr : Nat} (hout : addr < p.regBase ∨ p.regBase + 0x40 ≤ addr)
    (bytes : Nat) : regAccess p addr bytes = .error .hostOutsideWindow := if_pos hout

/-- REG_BASE is a multiple of 4, so an offset is aligned where its address is (00_scope.md R5). -/
theorem regAccess_misaligned {p : Config.Params} {addr bytes : Nat} (hwf : p.wf) (hlow : p.regBase ≤ addr)
    (hhigh : addr < p.regBase + 0x40) (hbad : bytes ≠ 4 ∨ addr % 4 ≠ 0) :
    regAccess p addr bytes = .error .hostAccessSize := by
  obtain ⟨-, -, -, -, -, -, hbase⟩ := hwf
  rw [regAccess, if_neg (by omega), if_pos (by omega)]

theorem regAt_eq_cmd {offset : Nat} (hcmd : regAt offset = .cmd) : offset = 0 := by
  unfold regAt at hcmd
  by_contra hne
  rw [if_neg hne] at hcmd
  split_ifs at hcmd

theorem regAccess_eq_cmd {p : Config.Params} {addr bytes : Nat} (hacc : regAccess p addr bytes = .ok .cmd) :
    addr = p.regBase ∧ bytes = 4 := by
  rw [regAccess] at hacc
  split at hacc
  · cases hacc
  · split at hacc
    · cases hacc
    · next hwindow hsize =>
      have hoffset := regAt_eq_cmd (Except.ok.inj hacc)
      omega

theorem hostRegWrite_error {s : State} {addr bytes : Nat} {r : Refusal} (hacc : regAccess s.cfg addr bytes = .error r)
    (v : Word) : hostRegWrite addr bytes v s = .outcome (.refused r) := by
  rw [hostRegWrite, hacc]

theorem hostRegWrite_in_reset {s : State} {addr bytes : Nat} {r : Reg} (hacc : regAccess s.cfg addr bytes = .ok r)
    (hreset : s.inReset = true) (v : Word) : hostRegWrite addr bytes v s = .outcome (.next s) := by
  simp only [hostRegWrite, hacc]
  rw [if_pos hreset]

theorem hostRegWrite_cmd {s : State} {addr bytes : Nat} (hacc : regAccess s.cfg addr bytes = .ok .cmd)
    (hreset : s.inReset = false) (v : Word) : hostRegWrite addr bytes v s = .command v { s with cmd := v } := by
  simp only [hostRegWrite, hacc]
  rw [if_neg (ne_true_of_eq_false hreset), if_pos trivial, writeReg_cmd_reg]

theorem hostRegWrite_other {s : State} {addr bytes : Nat} {r : Reg} (hacc : regAccess s.cfg addr bytes = .ok r)
    (hreset : s.inReset = false) (hr : r ≠ .cmd) (v : Word) :
    hostRegWrite addr bytes v s = .outcome (.next (s.writeReg r v)) := by
  simp only [hostRegWrite, hacc]
  rw [if_neg (ne_true_of_eq_false hreset), if_neg hr]

theorem hostRegRead_error {s : State} {addr bytes : Nat} {r : Refusal} (hacc : regAccess s.cfg addr bytes = .error r) :
    hostRegRead addr bytes s = .refused r := by
  rw [hostRegRead, hacc]

theorem hostRegRead_ok {s : State} {addr bytes : Nat} {r : Reg} (hacc : regAccess s.cfg addr bytes = .ok r) :
    hostRegRead addr bytes s = .next { s with hostData := s.readReg r } := by
  rw [hostRegRead, hacc]

theorem step_refused_of_regAccess {s : State} {addr bytes : Nat} {v : Word} {rest : List HostAction} {r : Refusal}
    (hacc : regAccess s.cfg addr bytes = .error r)
    (hq : s.hostq = .regWrite addr bytes v :: rest ∨ s.hostq = .regRead addr bytes :: rest) :
    step s = .refused r := by
  rcases hq with hq | hq
  · exact step_of_effect hq (hostRegWrite_error (s := { s with hostq := rest }) hacc v)
  · exact step_of_effect hq (congrArg HostEffect.outcome (hostRegRead_error hacc))

theorem step_regWrite_cmd {s : State} {c : Word} {rest : List HostAction} (hreset : s.inReset = false)
    (hq : s.hostq = .regWrite s.cfg.regBase 4 c :: rest) :
    step s = runCommand c { s with hostq := rest, cmd := c } := by
  have hacc : regAccess s.cfg s.cfg.regBase 4 = .ok .cmd := regAccess_inside s.cfg (offset := 0) (by decide) rfl
  exact step_of_effect hq (hostRegWrite_cmd (s := { s with hostq := rest }) hacc hreset c)

theorem runCommand_of_command {c : Word} {i : Instr} (hdec : decode c = .command i) (s : State) :
    runCommand c s = exec i s := by
  rw [runCommand, hdec]

theorem decodeTableWord_eq_some {nbits w : Nat} {i : Instr} (hdec : decodeTableWord nbits w = some i) :
    decode (tableWord nbits w) = .command i := by
  rw [decodeTableWord] at hdec
  cases hword : decode (tableWord nbits w) with
  | command j =>
    rw [hword] at hdec
    exact congrArg Decoded.command (Option.some.inj hdec)
  | illegal why =>
    rw [hword] at hdec
    cases hdec

/-- Settles O7: a write of CMD runs the word, and a legal word's run is its command's. -/
theorem stepRunsTheDecodedCommand : Obligations.StepRunsTheDecodedCommand := by
  refine ⟨fun s c rest i hreset hq hdec => ?_, fun s nbits w i hdec => ?_⟩
  · rw [step_regWrite_cmd hreset hq, runCommand_of_command hdec]
  · have hstep : step (s.withFetchWord nbits w) =
        runCommand (tableWord nbits w) { s with inReset := false, cmd := tableWord nbits w } :=
      step_regWrite_cmd (s := s.withFetchWord nbits w) rfl rfl
    rw [hstep, runCommand_of_command (decodeTableWord_eq_some hdec)]
    rfl

/-- Settles O8: a write of CMD runs the word, and an illegal word's run is ERR_ILLEGAL. -/
theorem stepTakesErrIllegalOnAnIllegalWord : Obligations.StepTakesErrIllegalOnAnIllegalWord := by
  intro s c rest why hreset hq hill
  rw [step_regWrite_cmd hreset hq, runCommand_of_illegal hill]

theorem writeReg_regAt {offset : Nat} (hne : offset ≠ 0x00) (s : State) (v : Word) :
    s.writeReg (regAt offset) v =
      if offset = 0x04 then { s with arg0 := v }
      else if offset = 0x08 then { s with arg1 := v }
      else if offset = 0x0C then { s with arg2 := v }
      else s := by
  rw [regAt, if_neg hne]
  split_ifs <;> rfl

/-- The read of STATUS masks bits 31:8 (10_state.md R24). -/
theorem statusWord_code (s : State) : statusWord s.code = s.status &&& 0xFF := by
  rw [statusWord_eq_setWidth, State.code]
  apply BitVec.eq_of_toNat_eq
  have hmask : (0xFF : Word).toNat = 2 ^ 8 - 1 := rfl
  rw [BitVec.toNat_setWidth, BitVec.extractLsb'_toNat, Nat.shiftRight_zero, BitVec.toNat_and, hmask,
    Nat.and_two_pow_sub_one_eq_mod]
  omega

theorem readReg_regAt (offset : Nat) (s : State) :
    s.readReg (regAt offset) =
      if offset = 0x00 then s.cmd else if offset = 0x04 then s.arg0 else if offset = 0x08 then s.arg1
      else if offset = 0x0C then s.arg2 else if offset = 0x10 then s.result
      else if offset = 0x14 then s.status &&& 0xFF else if offset = 0x18 then s.diagCount else 0 := by
  rw [regAt, ← statusWord_code]
  split_ifs <;> rfl

theorem step_regWrite_other {s : State} {offset : Nat} {v : Word} {rest : List HostAction} (hreset : s.inReset = false)
    (hne : offset ≠ 0) (hle : offset ≤ 0x3C) (halign : offset % 4 = 0)
    (hq : s.hostq = .regWrite (s.cfg.regBase + offset) 4 v :: rest) :
    step s = .next (({ s with hostq := rest } : State).writeReg (regAt offset) v) := by
  have hr : regAt offset ≠ .cmd := fun hcmd => hne (regAt_eq_cmd hcmd)
  exact step_of_effect hq (hostRegWrite_other (s := { s with hostq := rest }) (regAccess_inside s.cfg hle halign) hreset hr v)

theorem step_regRead {s : State} {offset : Nat} {rest : List HostAction} (hle : offset ≤ 0x3C)
    (halign : offset % 4 = 0) (hq : s.hostq = .regRead (s.cfg.regBase + offset) 4 :: rest) :
    step s = .next { s with hostq := rest, hostData := s.readReg (regAt offset) } := by
  rw [step_of_effect hq (congrArg HostEffect.outcome (hostRegRead_ok (regAccess_inside s.cfg hle halign))), settled]
  cases regAt offset <;> rfl

/-- Settles O9: the clauses are the register an offset names, written or read. -/
theorem registerWindowAccess : Obligations.RegisterWindowAccess := by
  refine ⟨fun s v rest hreset hq => step_regWrite_cmd hreset hq,
    fun s offset v rest hreset hlow hle halign hq => ?store, fun s offset rest hle halign hq => ?load,
    fun s addr bytes v rest hwf hlow hhigh hbad hq =>
      step_refused_of_regAccess (regAccess_misaligned hwf hlow hhigh hbad) hq,
    rfl, rfl, rfl, rfl, rfl, rfl, rfl⟩
  case store => rw [step_regWrite_other hreset (by omega) hle halign hq, writeReg_regAt (by omega)]
  case load => rw [step_regRead hle halign hq, readReg_regAt]

/-! HMEM, reset, and actions the spec gives no effect. -/

theorem step_memWrite {s : State} {a : Nat} {v : Byte} {rest : List HostAction} (ha : a < s.cfg.hmemBytes)
    (hq : s.hostq = .memWrite a v :: rest) :
    step s = .next { s with hostq := rest, hmem := cellWrite s.hmem a v } := by
  exact step_of_effect hq (congrArg HostEffect.outcome (if_neg (not_not.mpr ha)))

theorem step_memRead {s : State} {a : Nat} {rest : List HostAction} (ha : a < s.cfg.hmemBytes)
    (hq : s.hostq = .memRead a :: rest) :
    step s = .next { s with hostq := rest, hostData := (s.memRead a).setWidth 32 } := by
  rw [← BitVec.ofNat_toNat]
  exact step_of_effect hq (congrArg HostEffect.outcome (if_neg (not_not.mpr ha)))

theorem step_hmem_absent {s : State} {a : Nat} {v : Byte} {rest : List HostAction} (ha : s.cfg.hmemBytes ≤ a)
    (hq : s.hostq = .memWrite a v :: rest ∨ s.hostq = .memRead a :: rest) : step s = .fault (.hmemAddress a) := by
  have hout : ¬ InRange s.cfg a 1 := Nat.not_le.mpr (Nat.lt_succ_of_le ha)
  rcases hq with hq | hq
  · exact step_of_effect hq (congrArg HostEffect.outcome (if_pos hout))
  · exact step_of_effect hq (congrArg HostEffect.outcome (if_pos hout))

theorem memRead_cellWrite (s : State) (a b : Nat) (v : Byte) :
    ({ s with hmem := cellWrite s.hmem a v } : State).memRead b = if b = a then v else s.memRead b := by
  rw [State.memRead, State.memRead, cellRead_cellWrite]
  split <;> rfl

/-- Settles O10: one step equation per access, and `cellRead_cellWrite` for the bytes after a write. -/
theorem hostReadsAndWritesHmemBytes : Obligations.HostReadsAndWritesHmemBytes :=
  ⟨fun s a v _ ha hq => ⟨cellWrite s.hmem a v, step_memWrite ha hq, fun b => memRead_cellWrite s a b v⟩,
    fun _ _ _ ha hq => step_memRead ha hq, fun _ _ _ _ ha hq => step_hmem_absent ha hq⟩

/-- Settles O11: the access check comes before the access, and an action during a command has no other arm. -/
theorem hostActionsOutsideTheSpecAreRefused : Obligations.HostActionsOutsideTheSpecAreRefused :=
  ⟨fun _ _ bytes _ _ hout hq => step_refused_of_regAccess (regAccess_outside hout bytes) hq,
    fun _ _ hq => step_of_hostq hq⟩

theorem step_assertReset {s : State} {rest : List HostAction} (hq : s.hostq = .assertReset :: rest) :
    step s = .next { ({ s with hostq := rest } : State).applyReset with inReset := true } := step_of_hostq hq

theorem step_releaseReset {s : State} {rest : List HostAction} (hq : s.hostq = .releaseReset :: rest) :
    step s = .next { s with hostq := rest, inReset := false } := step_of_hostq hq

theorem step_regWrite_in_reset {s : State} {offset : Nat} {v : Word} {rest : List HostAction}
    (hreset : s.inReset = true) (hle : offset ≤ 0x3C) (halign : offset % 4 = 0)
    (hq : s.hostq = .regWrite (s.cfg.regBase + offset) 4 v :: rest) : step s = .next { s with hostq := rest } := by
  exact step_of_effect hq (hostRegWrite_in_reset (s := { s with hostq := rest }) (regAccess_inside s.cfg hle halign) hreset v)

/-- Settles O12: reset, release and a write that is lost, and the values of 10_state.md R40. -/
theorem resetGivesEveryElementItsValue : Obligations.ResetGivesEveryElementItsValue :=
  ⟨fun _ _ hq => ⟨_, step_assertReset hq, rfl, rfl, rfl, rfl, rfl, rfl, rfl, rfl, rfl, rfl, rfl, rfl, rfl, rfl, rfl, rfl,
      rfl, rfl⟩,
    fun _ _ _ _ hreset hle halign hq => step_regWrite_in_reset hreset hle halign hq,
    fun _ _ hq => step_releaseReset hq,
    rfl, rfl, rfl, rfl, rfl, rfl, rfl, rfl, rfl, rfl, rfl, rfl, rfl⟩

theorem reset_readUe : State.reset.readUe = .overrun :=
  readUe_of_end_before_one (k := 0) (by decide) le_rfl fun _ hi => absurd hi (Nat.not_lt_zero _)

/-- Settles O13: nothing is committed and the read buffer is empty. -/
theorem afterResetWriterAndReaderAreEmpty : Obligations.AfterResetWriterAndReaderAreEmpty := by
  refine ⟨rfl, exec_wCopyOut_of_inRange (by decide), exec_rGetBits_of_inside (by decide) le_rfl,
    fun n hpos hn => ?bits, exec_rGetUe_of_overrun reset_readUe, exec_rGetSe_of_overrun reset_readUe⟩
  case bits => exact exec_rGetBits_of_past hn (by show 0 < 0 + n; omega)

/-! What a step can do. -/

/-- The plan of a word written to CMD (30_encoding.md R99). -/
def planWord (c : Word) (s : State) : Plan :=
  match decode c with
  | .command i => plan i s
  | .illegal _ => .fail .illegal

theorem runCommand_eq_after (c : Word) (s : State) : runCommand c s = .next ((planWord c s).after s) := by
  rw [runCommand, planWord]
  cases decode c with
  | command i => exact exec_eq_after_plan i s
  | illegal why => rfl

theorem planWord_inv {c : Word} {s : State} (hinv : BlockInv s) : BlockInv ((planWord c s).after s) := by
  rw [planWord]
  cases decode c with
  | command i => exact after_inv (plan_spec i s) hinv
  | illegal why => exact afterError_inv .illegal hinv

/-- The next states of a step, by what the host did. A write of the window that is lost in reset is one of a register that
stores nothing. -/
inductive StepSpec (s : State) : State → Prop
  | idle (hq : s.hostq = []) : StepSpec s s
  | ran {c : Word} {rest : List HostAction} (hq : s.hostq = .regWrite s.cfg.regBase 4 c :: rest) :
      StepSpec s ((planWord c { s with hostq := rest, cmd := c }).after { s with hostq := rest, cmd := c })
  | wrote {a : HostAction} {rest : List HostAction} (hq : s.hostq = a :: rest) (r : Reg) (v : Word) :
      StepSpec s (({ s with hostq := rest } : State).writeReg r v)
  | read {a : HostAction} {rest : List HostAction} (hq : s.hostq = a :: rest) (v : Word) :
      StepSpec s { s with hostq := rest, hostData := v }
  | wroteByte {a : Nat} {v : Byte} {rest : List HostAction} (hq : s.hostq = .memWrite a v :: rest)
      (ha : a < s.cfg.hmemBytes) : StepSpec s { s with hostq := rest, hmem := cellWrite s.hmem a v }
  | reset {rest : List HostAction} (hq : s.hostq = .assertReset :: rest) :
      StepSpec s { ({ s with hostq := rest } : State).applyReset with inReset := true }
  | released {rest : List HostAction} (hq : s.hostq = .releaseReset :: rest) :
      StepSpec s { s with hostq := rest, inReset := false }

theorem stepSpec_of_regWrite {s t : State} {addr bytes : Nat} {v : Word} {rest : List HostAction}
    (hq : s.hostq = .regWrite addr bytes v :: rest) (hstep : step s = .next t) : StepSpec s t := by
  cases hacc : regAccess s.cfg addr bytes with
  | error r => cases (step_refused_of_regAccess hacc (.inl hq)).symm.trans hstep
  | ok r =>
    cases hreset : s.inReset with
    | true =>
      cases (step_of_effect hq (hostRegWrite_in_reset (s := { s with hostq := rest }) hacc hreset v)).symm.trans hstep
      exact .wrote hq .reserved v
    | false =>
      by_cases hr : r = .cmd
      · subst hr
        obtain ⟨rfl, rfl⟩ := regAccess_eq_cmd hacc
        rw [step_regWrite_cmd hreset hq, runCommand_eq_after] at hstep
        cases hstep
        exact .ran hq
      · cases (step_of_effect hq (hostRegWrite_other (s := { s with hostq := rest }) hacc hreset hr v)).symm.trans hstep
        exact .wrote hq r v

/-- The whole of what a step can do. -/
theorem step_cases {s t : State} (hstep : step s = .next t) : StepSpec s t := by
  cases hq : s.hostq with
  | nil =>
    cases (step_idle hq).symm.trans hstep
    exact .idle hq
  | cons a rest =>
    cases a with
    | regWrite addr bytes v => exact stepSpec_of_regWrite hq hstep
    | regRead addr bytes =>
      cases hacc : regAccess s.cfg addr bytes with
      | error r => cases (step_refused_of_regAccess (v := 0) hacc (.inr hq)).symm.trans hstep
      | ok r =>
        cases (step_of_effect hq (congrArg HostEffect.outcome (hostRegRead_ok hacc))).symm.trans hstep
        exact .read hq _
    | memWrite a v =>
      by_cases ha : a < s.cfg.hmemBytes
      · cases (step_memWrite ha hq).symm.trans hstep
        exact .wroteByte hq ha
      · cases (step_hmem_absent (Nat.not_lt.mp ha) (.inl hq)).symm.trans hstep
    | memRead a =>
      by_cases ha : a < s.cfg.hmemBytes
      · cases (step_memRead ha hq).symm.trans hstep
        exact .read hq _
      · cases (step_hmem_absent (v := 0) (Nat.not_lt.mp ha) (.inr hq)).symm.trans hstep
    | duringCommand => cases (step_of_hostq hq).symm.trans hstep
    | assertReset =>
      cases (step_assertReset hq).symm.trans hstep
      exact .reset hq
    | releaseReset =>
      cases (step_releaseReset hq).symm.trans hstep
      exact .released hq

/-- Settles O14: every next state of a step has the rest of the list and the parameters. -/
theorem stepTakesOneActionAndKeepsParameters : Obligations.StepTakesOneActionAndKeepsParameters := by
  intro s t hstep
  cases step_cases hstep with
  | idle hq => rw [hq]; exact ⟨rfl, rfl⟩
  | ran hq =>
    obtain ⟨-, -, -, -, hcfg, -, hhostq, -⟩ := after_frame (planWord _ _) _
    rw [hcfg, hhostq, hq]
    exact ⟨rfl, rfl⟩
  | wrote hq r v => rw [writeReg_hostq, writeReg_cfg, hq]; exact ⟨rfl, rfl⟩
  | read hq _ | wroteByte hq _ | reset hq | released hq => rw [hq]; exact ⟨rfl, rfl⟩

/-- Settles O20: a command that runs is counted when its plan is an error; nothing else but reset touches DIAG_COUNT. -/
theorem onlyErrorsAndResetChangeDiagCount : Obligations.OnlyErrorsAndResetChangeDiagCount := by
  intro s t hstep hnoreset
  cases step_cases hstep with
  | ran hq =>
    obtain ⟨hcode, heq⟩ | ⟨-, hsame⟩ := after_precise (planWord _ _) _
    · refine .inr ⟨?_, hcode, ?_, _, _, hq⟩ <;> rw [heq]
    · exact .inl hsame
  | wrote hq r v => exact .inl (writeReg_diagCount _ r v)
  | reset hq => exact absurd hq (hnoreset _)
  | idle _ | read _ _ | wroteByte _ _ | released _ => exact .inl rfl

/-! The invariant. -/

theorem resetWriter_ok (cap : Nat) : BitWriter.reset.Ok cap where
  pb_le := Nat.zero_le _
  sr_lt := Nat.one_pos
  wcnt_le := Nat.zero_le _
  wbuf_wf := List.Pairwise.nil
  wbuf_inside := fun _ hc => absurd hc List.not_mem_nil
  wbuf_held := fun k hk => absurd hk (Nat.not_lt_zero k)

theorem resetReader_ok (p : Config.Params) : BitReader.reset.Ok p := ⟨le_rfl, Nat.zero_le _⟩

/-- Settles O15: nothing is written, the read buffer is empty, and the default parameters are legal. -/
theorem invariantHoldsAtReset : Obligations.InvariantHoldsAtReset :=
  ⟨by decide, resetWriter_ok _, resetReader_ok _, ⟨List.Pairwise.nil, fun _ hc => absurd hc List.not_mem_nil⟩,
    statusOk_of_done .ok⟩

theorem writeReg_inv {s : State} (r : Reg) (v : Word) (hinv : BlockInv s) : BlockInv (s.writeReg r v) := by
  obtain ⟨hparams, hwriter, hreader, hmemory, hstatus⟩ := hinv
  constructor
  · rwa [writeReg_cfg]
  · rwa [writeReg_bw, State.wbufCap, writeReg_cfg]
  · rwa [writeReg_br, writeReg_cfg]
  · rwa [writeReg_hmem, writeReg_cfg]
  · rwa [writeReg_status]

theorem cellWrite_ok {p : Config.Params} {m : Memory} {a : Nat} (v : Byte) (ha : a < p.hmemBytes) (hok : m.Ok p) :
    Memory.Ok p (cellWrite m a v) :=
  ⟨cellWrite_wf a v hok.wf, cellWrite_inside v ha hok.inside⟩

/-- Settles O16: every next state of a step keeps the invariant; a command's does because every plan does. -/
theorem everyStepKeepsTheInvariant : Obligations.EveryStepKeepsTheInvariant := by
  intro s t hinv hstep
  have hhost : ∀ rest, BlockInv { s with hostq := rest } := fun _ =>
    ⟨hinv.params, hinv.writer, hinv.reader, hinv.memory, hinv.status⟩
  cases step_cases hstep with
  | idle _ => exact hinv
  | ran _ => exact planWord_inv ⟨hinv.params, hinv.writer, hinv.reader, hinv.memory, hinv.status⟩
  | wrote _ r v => exact writeReg_inv r v (hhost _)
  | read _ _ | released _ => exact ⟨hinv.params, hinv.writer, hinv.reader, hinv.memory, hinv.status⟩
  | wroteByte _ ha => exact ⟨hinv.params, hinv.writer, hinv.reader, cellWrite_ok _ ha hinv.memory, hinv.status⟩
  | reset _ => exact ⟨hinv.params, resetWriter_ok _, resetReader_ok _, hinv.memory, statusOk_of_done .ok⟩

end Sys2Proof.HostSteps

/-! PROOF. The codes apart from any state (30_encoding.md part B, 42_exp_golomb.md section 1, 43_sei_frame_builder.md sections
1 and 3), the pseudo-commands, and what a writer does that is emptied, aligned twice or given trailing bits. -/

namespace Sys2Proof.CodeFacts

open Sys2Proof.Machine Sys2Proof.WriterCommands Sys2Proof.ReaderCommands Sys2Proof.ExpGolombCommands
  Sys2Proof.SeiCommand

/-! The zig-zag (30_encoding.md R102). -/

theorem izz_zz (k : Int) : izz (zz k) = k := by
  rw [izz, zz]
  by_cases hk : 0 < k
  · rw [if_pos hk, if_pos (by omega)]
    omega
  · rw [if_neg hk, if_neg (by omega)]
    omega

theorem zz_izz (u : Nat) : zz (izz u) = u := by
  rw [izz]
  by_cases hodd : u % 2 = 1
  · rw [if_pos hodd, zz, if_pos (by omega)]
    omega
  · rw [if_neg hodd, zz, if_neg (by omega)]
    omega

/-- The values with a ue code are the zig-zags of the integers that are larger than -2^31 and below 2^31. -/
theorem zz_le_ueMax_iff (k : Int) : zz k ≤ ueMax ↔ -(2 ^ 31 - 1) ≤ k ∧ k ≤ 2 ^ 31 - 1 := by
  rw [zz, ueMax]
  split <;> omega

/-- Settles O45: the two maps are inverse, and `zz_le_ueMax_iff` bounds both ranges. -/
theorem zigzagRoundTrips : Obligations.ZigzagRoundTrips := by
  refine ⟨fun k hlow hhigh => ⟨(zz_le_ueMax_iff k).mpr ⟨hlow, hhigh⟩, izz_zz k⟩, fun u hu => ?_⟩
  obtain ⟨hlow, hhigh⟩ := (zz_le_ueMax_iff (izz u)).mp ((zz_izz u).trans_le hu)
  exact ⟨hlow, hhigh, zz_izz u⟩

/-! The ue code (42_exp_golomb.md R200). -/

theorem ueL_eq_of_range {L v : Nat} (hlow : 2 ^ L - 1 ≤ v) (hhigh : v ≤ 2 ^ (L + 1) - 2) : ueL v = L := by
  have hpos : 0 < 2 ^ L := Nat.two_pow_pos L
  rw [ueL, Nat.log2_eq_iff (by omega)]
  omega

theorem bin_of_leading_one {L x : Nat} (hx : x < 2 ^ L) : bin (L + 1) (2 ^ L + x) = true :: bin L x := by
  rw [bin_succ, Nat.testBit_two_pow_add_eq, Nat.testBit_lt_two_pow hx, ← bin_mod L (2 ^ L + x), Nat.add_mod_left,
    bin_mod]
  rfl

/-- A ue code is as many zeros as its suffix has bits, the first 1, and the suffix (30_encoding.md R101). -/
theorem ueBits_eq_zeros_one_suffix {L x : Nat} (hx : x < 2 ^ L) :
    ueBits (2 ^ L - 1 + x) = List.replicate L false ++ [true] ++ bin L x := by
  have hpos : 0 < 2 ^ L := Nat.two_pow_pos L
  have hL : ueL (2 ^ L - 1 + x) = L := ueL_eq_of_range (by omega) (by omega)
  rw [ueBits, hL, bin_of_zero, show 2 ^ L - 1 + x + 1 = 2 ^ L + x by omega, bin_of_leading_one hx, List.append_assoc]
  rfl

/-- Settles O46: L(v) is the L of the range, and v is 2^L - 1 plus a suffix of L bits. -/
theorem ueCodeLengths : Obligations.UeCodeLengths := by
  intro L v hlow hhigh
  have hpos : 0 < 2 ^ L := Nat.two_pow_pos L
  have hlen : ueLen v = 2 * L + 1 := by rw [ueLen, ueL_eq_of_range hlow hhigh]
  have hbits := ueBits_eq_zeros_one_suffix (L := L) (x := v - (2 ^ L - 1)) (by omega)
  rw [Nat.add_sub_cancel' hlow] at hbits
  exact ⟨hlen, (ueBits_length v).trans hlen, hbits⟩

/-! Reading an se code (42_exp_golomb.md R205). -/

theorem twos32_toInt {k : Int} (hlow : -2 ^ 31 ≤ k) (hhigh : k < 2 ^ 31) : (twos32 k).toInt = k :=
  BitVec.toInt_ofInt_eq_self (by decide) hlow hhigh

/-- A code with at most 31 leading zeros has a value up to 2^32 - 2. -/
theorem ueValue_le_ueMax {L x : Nat} (hL : L ≤ 31) (hx : x < 2 ^ L) : 2 ^ L - 1 + x ≤ ueMax := by
  have hpow : 2 ^ L ≤ 2 ^ 31 := Nat.pow_le_pow_right (by decide) hL
  rw [ueMax]
  omega

/-- Settles O43: the value read is the zig-zag of k, and k fits in RESULT because the value has a ue code. -/
theorem getSeReadsTheCode : Obligations.GetSeReadsTheCode := by
  intro s L x k hL hx hinside hbits hk
  have hzz : zz k = 2 ^ L - 1 + x := zz_eq_of_cast_eq hk
  obtain ⟨hlow, hhigh⟩ := (zz_le_ueMax_iff k).mp (hzz ▸ ueValue_le_ueMax hL hx)
  refine ⟨twos32 (izz (2 ^ L - 1 + x)), zext32 (s.br.cur.toNat + (2 * L + 1)),
    exec_rGetSe_of_value (readUe_of_code hL hx hinside hbits), ?_, zext32_toNat_of_le hinside⟩
  rw [← hzz, izz_zz, twos32_toInt (by omega) (by omega)]

/-! The SEI frame (43_sei_frame_builder.md R230, R233, R235). -/

/-- Settles O48: `frame_length` and the closed form of FrameLen. -/
theorem frameHasItsLength : Obligations.FrameHasItsLength := by
  intro p f t payload
  refine ⟨?_, frame_length p f t payload⟩
  rw [frame_length, frameLen_eq]
  cases f <;> rfl

theorem parseSize_of_run (q : Nat) {b : Byte} (hb : b ≠ 0xFF) (rest : List Byte) :
    parseSize (List.replicate q 0xFF ++ b :: rest) = some (255 * q + b.toNat, rest) := by
  induction q with
  | zero => rw [List.replicate_zero, List.nil_append, parseSize, if_neg hb, Nat.mul_zero, Nat.zero_add]
  | succ q ih =>
    rw [List.replicate_succ, List.cons_append, parseSize, if_pos rfl, ih, Option.map_some, Nat.mul_succ]
    congr 2
    omega

theorem parseSize_sizeBytes (n : Nat) (rest : List Byte) : parseSize (sizeBytes n ++ rest) = some (n, rest) := by
  have hlast : (BitVec.ofNat 8 (n % 255)).toNat = n % 255 := by
    rw [BitVec.toNat_ofNat, Nat.mod_eq_of_lt (by omega)]
  have hne : BitVec.ofNat 8 (n % 255) ≠ 0xFF := fun h => by
    have hff : n % 255 = 255 := hlast.symm.trans (congrArg BitVec.toNat h)
    omega
  rw [sizeBytes, List.append_assoc, List.singleton_append, parseSize_of_run _ hne, hlast, Nat.div_add_mod]

/-- A frame parted after its NAL header. -/
theorem frame_eq (p : Config.Params) (f : Family) (t : Byte) (payload : List Byte) :
    frame p f t payload = (startCode ++ nalHdr p f) ++ (t :: (sizeBytes payload.length ++ (payload ++ [0x80]))) := by
  simp [frame]

/-- What follows the NAL header of a frame does not depend on the family (43_sei_frame_builder.md R235). -/
theorem frame_drop_header (p : Config.Params) (f : Family) (t : Byte) (payload : List Byte) :
    (frame p f t payload).drop (4 + nalHdrLen f) = t :: (sizeBytes payload.length ++ (payload ++ [0x80])) := by
  rw [frame_eq, List.drop_left' (by rw [List.length_append, nalHdr_length]; rfl)]

/-- Settles O49: the size bytes are a run of 0xFF and a last byte below 0xFF. -/
theorem sizeBytesReadBack : Obligations.SizeBytesReadBack := by
  refine ⟨parseSize_sizeBytes, fun p f t payload => ?_⟩
  rw [← List.drop_drop, frame_drop_header, List.drop_succ_cons, List.drop_zero, parseSize_sizeBytes]

/-- Settles O50: both frames are the start code, the header of the family, and `frame_drop_header`'s bytes. -/
theorem familiesDifferInTheHeaderAlone : Obligations.FamiliesDifferInTheHeaderAlone := fun p t payload =>
  ⟨rfl, (frame_drop_header p .oneByte t payload).trans (frame_drop_header p .twoByte t payload).symm, rfl, rfl, rfl⟩

/-! Pseudo-commands (30_encoding.md R107). -/

/-- Settles O6: a pseudo-command is its command with the operand put in; W_ZEROS tests its range first. -/
theorem pseudoCommandsStandForTheirCommands : Obligations.PseudoCommandsStandForTheirCommands :=
  ⟨fun _ => rfl, fun _ => rfl, fun _ => rfl, fun _ => rfl, fun _ hn => if_pos hn, fun _ hn => if_neg (Nat.not_le.mpr hn),
    rfl, rfl, rfl, rfl, rfl, fun _ => rfl⟩

/-! The writer: empty, aligned twice, trailing bits (40_bit_writer.md R133, R138, R140). -/

/-- Settles O28: both commands have the one meaning, and a stream with no bytes and no pending bits is empty. -/
theorem initAndClearEmptyTheStream : Obligations.InitAndClearEmptyTheStream :=
  ⟨by decide, by decide, fun _ => ⟨rfl, rfl, rfl⟩⟩

/-- Zeros up to the byte boundary leave no bit pending. -/
theorem emitBits_zero_to_boundary_pb {bw : BitWriter} (hpb : bw.pb ≤ 7) :
    (emitBits 0 (8 - bw.pb) bw).pb = 0 := by
  rw [emitBits_zero_to_boundary (by omega) (by omega)]
  rfl

theorem exec_wAlignZero_aligned_next {s : State} (haligned : s.bw.pb = 0) :
    exec .wAlignZero s = .next { s with status := 0, result := 0 } := exec_wAlignZero_of_aligned haligned

/-- Settles O33: a W_ALIGN_ZERO that completes leaves no bit pending, and with none pending it keeps the writer. -/
theorem aligningTwiceIsAligningOnce : Obligations.AligningTwiceIsAligningOnce := by
  intro s t hpb hexec hstatus
  by_cases haligned : s.bw.pb = 0
  · cases (exec_wAlignZero_of_aligned haligned).symm.trans hexec
    exact ⟨haligned, exec_wAlignZero_aligned_next haligned, fun _ => rfl⟩
  · by_cases hfits : Fits s (8 - s.bw.pb)
    · cases (exec_wAlignZero_of_fits haligned hfits).symm.trans hexec
      have hpad := emitBits_zero_to_boundary_pb hpb
      exact ⟨hpad, exec_wAlignZero_aligned_next hpad, fun h => absurd h haligned⟩
    · cases (exec_wAlignZero_of_full haligned hfits).symm.trans hexec
      exact absurd hstatus (show statusWord ErrCode.nomem.code ≠ 0 by decide)

theorem sr_eq_zero_of_aligned {cap : Nat} {bw : BitWriter} (hok : bw.Ok cap) (haligned : bw.pb = 0) : bw.sr = 0 := by
  have hlt := hok.sr_lt
  rw [haligned] at hlt
  exact BitVec.eq_of_toNat_eq (Nat.lt_one_iff.mp hlt)

theorem emitBits_one_of_aligned {bw : BitWriter} (haligned : bw.pb = 0) (hsr : bw.sr = 0) :
    emitBits 1 1 bw = { bw with sr := 1, pb := 1 } := by
  rw [emitBits, emitBits, emitBit_of_pending _ (by omega), haligned, hsr]
  rfl

/-- W_PUT 1, 1 on an aligned stream leaves the one bit pending. -/
theorem exec_put_one_of_aligned {s : State} (hok : s.bw.Ok s.wbufCap) (haligned : s.bw.pb = 0) :
    exec (.wPut 1) { s with arg0 := 1 } =
      .next { s with arg0 := 1, bw := { s.bw with sr := 1, pb := 1 }, status := 0, result := 0 } := by
  have hwcnt := hok.wcnt_le
  have hfits : Fits { s with arg0 := 1 } 1 := by
    show s.bw.wcnt + (s.bw.pb + 1) / 8 ≤ s.wbufCap
    omega
  rw [exec_wPut_of_fits (by decide) hfits, ← emitBits_one_of_aligned haligned (sr_eq_zero_of_aligned hok haligned)]
  rfl

/-- W_ALIGN_ZERO with room and bits pending commits SR * 2^(8 - PB). -/
theorem exec_wAlignZero_commits {s : State} (hpb : s.bw.pb ≤ 7) (hpending : s.bw.pb ≠ 0)
    (hroom : s.bw.wcnt < s.wbufCap) :
    exec .wAlignZero s =
      .next { s with bw := commitByte s.bw (s.bw.sr <<< (8 - s.bw.pb)), status := 0, result := 0 } := by
  rw [exec_wAlignZero_of_fits hpending ((fits_padding_iff hpb).mpr hroom),
    emitBits_zero_to_boundary (by omega) (by omega)]
  rfl

theorem commitByte_byte_of_lt {bw : BitWriter} {k : Nat} (v : Byte) (hk : k < bw.wcnt) :
    (commitByte bw v).byte k = bw.byte k := by
  rw [BitWriter.byte, BitWriter.byte, commitByte, cellRead_cellWrite_other _ v (Nat.ne_of_lt hk)]

/-- Settles O37: the pending 1 bit is committed with seven zeros after it. -/
theorem trailingBitsAppendEighty : Obligations.TrailingBitsAppendEighty := by
  intro s hok haligned hroom
  refine ⟨_, _, exec_put_one_of_aligned hok haligned, rfl,
    exec_wAlignZero_commits (by decide : 1 ≤ 7) (by decide : 1 ≠ 0) hroom, rfl, rfl, rfl, ?_, fun k hk => ?_⟩
  · exact commitByte_byte { s.bw with sr := 1, pb := 1 } _
  · exact commitByte_byte_of_lt (bw := { s.bw with sr := 1, pb := 1 }) _ hk

end Sys2Proof.CodeFacts

/-! PROOF. The round trips through HMEM (20_memory.md R64, 41_bit_reader.md R178, 42_exp_golomb.md R206). A field has a code;
the writer appends it to the stream, the copied and attached stream is the reader's bits, and a reader command on the code
gives the field back. -/

namespace Sys2Proof.RoundTrips

open Sys2Proof.Machine Sys2Proof.WriterCommands Sys2Proof.ReaderCommands Sys2Proof.ExpGolombCommands Sys2Proof.CodeFacts

/-! The bits of a run of bytes (20_memory.md R63). -/

theorem readerBits_byte (s : State) (k : Nat) :
    s.readerBits (8 * k) 8 = bin 8 (s.memRead (s.br.base.toNat + k)).toNat := by
  refine List.ext_getElem (by simp) fun i hi _ => ?_
  have hi : i < 8 := by simpa using hi
  rw [readerBits_getElem, bin_getElem, rdBit_eq_getLsbD, BitVec.testBit_toNat]
  congr 2 <;> omega

/-- Where bytes stand in HMEM from byte `k` of the buffer up, the reader's bits from there are the bits of the bytes. -/
theorem readerBits_of_bytes {s : State} {l : List Byte} {k : Nat}
    (hbytes : ∀ i (hi : i < l.length), s.memRead (s.br.base.toNat + (k + i)) = l[i]) :
    s.readerBits (8 * k) (8 * l.length) = l.flatMap fun b => bin 8 b.toNat := by
  induction l generalizing k with
  | nil => rfl
  | cons b l ih =>
    have hhead : s.memRead (s.br.base.toNat + k) = b := hbytes 0 (Nat.zero_lt_succ _)
    have htail := ih (k := k + 1) fun i hi => by
      rw [Nat.add_right_comm]
      exact hbytes (i + 1) (Nat.succ_lt_succ hi)
    rw [List.length_cons, Nat.mul_succ, Nat.add_comm, readerBits_add, readerBits_byte, hhead, ← Nat.mul_succ, htail,
      List.flatMap_cons]

theorem readerBits_take {s : State} {p m n : Nat} (hmn : m ≤ n) : (s.readerBits p n).take m = s.readerBits p m := by
  obtain ⟨r, rfl⟩ := Nat.exists_eq_add_of_le hmn
  rw [readerBits_add, List.take_left' (readerBits_length s p m)]

/-! Copying out and attaching (20_memory.md R64). -/

/-- The stream's bytes, in HMEM at the buffer's base, read back as the stream. -/
theorem readerBits_of_committed {s : State} {bw : BitWriter}
    (hbytes : ∀ i < bw.wcnt, s.memRead (s.br.base.toNat + i) = bw.byte i) :
    s.readerBits 0 (8 * bw.wcnt) = bw.committed.flatMap fun b => bin 8 b.toNat := by
  have hrun := readerBits_of_bytes (s := s) (l := bw.committed) (k := 0) fun i hi => by
    rw [Nat.zero_add, hbytes i (by simpa using hi)]
    simp [BitWriter.committed]
  rwa [committed_length] at hrun

theorem stream_take {bw : BitWriter} {n : Nat} (hn : n ≤ 8 * bw.wcnt) :
    bw.stream.take n = (bw.committed.flatMap fun b => bin 8 b.toNat).take n :=
  List.take_append_of_le_length (by simpa [List.length_flatMap, Nat.mul_comm] using hn)

theorem copied_out {s : State} {d : Word} (hroom : d.toNat + s.bw.wcnt ≤ s.cfg.hmemBytes) :
    ∃ t, exec .wCopyOut { s with arg0 := d } = .next t ∧ t.status = 0 ∧ t.bw = s.bw ∧ t.cfg = s.cfg ∧
      ∀ i < s.bw.wcnt, t.memRead (d.toNat + i) = s.bw.byte i := by
  refine ⟨_, exec_wCopyOut_of_inRange (s := { s with arg0 := d }) hroom, rfl, rfl, rfl, fun i hi => ?_⟩
  have hbyte := memRead_of_committed_copied s d.toNat (d.toNat + i)
  rw [if_pos ⟨Nat.le_add_right _ _, Nat.add_lt_add_left hi _⟩, Nat.add_sub_cancel_left] at hbyte
  exact hbyte

theorem attached {s : State} {d n : Word} (hin : InRange s.cfg d.toNat (ceil8 n.toNat)) :
    ∃ t, exec .rInit { s with arg0 := d, arg1 := n } = .next t ∧ t.status = 0 ∧
      t.br = { base := d, bits := n, cur := 0 } ∧ ∀ a, t.memRead a = s.memRead a :=
  ⟨_, exec_rInit_of_inRange (s := { s with arg0 := d, arg1 := n }) hin, rfl, rfl, fun _ => rfl⟩

/-- W_COPY_OUT d and R_INIT d, n: the reader's bits are the stream's first n, at cursor 0. -/
theorem copied_and_attached {s : State} {d n : Word} (hn : n.toNat ≤ 8 * s.bw.wcnt)
    (hroom : d.toNat + s.bw.wcnt ≤ s.cfg.hmemBytes) :
    ∃ t u, exec .wCopyOut { s with arg0 := d } = .next t ∧ t.status = 0 ∧ t.bw = s.bw ∧
      exec .rInit { t with arg0 := d, arg1 := n } = .next u ∧ u.status = 0 ∧
      u.br = { base := d, bits := n, cur := 0 } ∧ u.readerBits 0 n.toNat = s.bw.stream.take n.toNat := by
  obtain ⟨t, hcopy, hcopied, hkept, hcfg, hbytes⟩ := copied_out hroom
  have hin : InRange t.cfg d.toNat (ceil8 n.toNat) := by
    rw [InRange, ceil8, hcfg]
    omega
  obtain ⟨u, hinit, hattached, hbr, hmem⟩ := attached hin
  refine ⟨t, u, hcopy, hcopied, hkept, hinit, hattached, hbr, ?_⟩
  have hbuffer : ∀ i < s.bw.wcnt, u.memRead (u.br.base.toNat + i) = s.bw.byte i := fun i hi => by
    rw [hmem, hbr]
    exact hbytes i hi
  rw [stream_take hn, ← readerBits_of_committed hbuffer, readerBits_take hn]

/-- Settles O36: `copied_and_attached` from a state of the invariant. -/
theorem copiedStreamReadsBackBitByBit : Obligations.CopiedStreamReadsBackBitByBit := by
  intro s d n _ hn hroom
  obtain ⟨t, u, hcopy, hcopied, -, hinit, hattached, hbr, hbits⟩ := copied_and_attached hn hroom
  exact ⟨t, u, hcopy, hcopied, hinit, hattached, by rw [hbr], hbits⟩

/-! Fields: codes, writing and reading. -/

/-- The bits of a field (30_encoding.md R100 to R102). -/
def code : Field → List Bool
  | .fixed v w => bin w v.toNat
  | .ue v => ueBits v.toNat
  | .se k => ueBits (zz k.toInt)

theorem zigzag_toNat (k : Int) : (zigzag k).toNat = zz k := by
  rw [zigzag, zz]
  split <;> rfl

theorem code_length (f : Field) : (code f).length = f.len := by
  cases f with
  | fixed v w => exact bin_length w v.toNat
  | ue v => exact ueBits_length v.toNat
  | se k => exact (ueBits_length _).trans (by rw [Field.len, zigzag_toNat])

/-- Fits(n) compares whole bytes of TELL + n with WBUF_CAP. -/
theorem fits_iff_tell (s : State) (n : Nat) : Fits s n ↔ (s.bw.tell + n) / 8 ≤ s.wbufCap := by
  rw [Fits, BitWriter.tell, Nat.add_assoc, Nat.mul_add_div (by decide)]

/-- A writer's state after `bits` more bits: the stream is longer by them, and the invariants and the parameters stay. -/
structure Wrote (s t : State) (bits : List Bool) : Prop where
  stream : t.bw.stream = s.bw.stream ++ bits
  ok : t.bw.Ok t.wbufCap
  cfg : t.cfg = s.cfg

theorem Wrote.tell {s t : State} {bits : List Bool} (h : Wrote s t bits) : t.bw.tell = s.bw.tell + bits.length := by
  rw [← stream_length, h.stream, List.length_append, stream_length]

theorem Wrote.wbufCap {s t : State} {bits : List Bool} (h : Wrote s t bits) : t.wbufCap = s.wbufCap := by
  rw [State.wbufCap, h.cfg, State.wbufCap]

theorem putUe_wrote {u : Nat} {s : State} (v : Word) (hok : s.bw.Ok s.wbufCap) (hu : u ≤ ueMax)
    (hroom : (s.bw.tell + ueLen u) / 8 ≤ s.wbufCap) :
    ∃ t, putUe u { s with arg0 := v } = .next t ∧ Wrote s t (ueBits u) := by
  have hfits : Fits s (ueLen u) := (fits_iff_tell s (ueLen u)).mpr hroom
  exact ⟨_, putUe_of_fits (s := { s with arg0 := v }) hu hfits, emitUe_stream hu hok.pb_le hok.sr_lt,
    emitUe_ok hok hfits, rfl⟩

/-- A legal field with room for it is appended whole. -/
theorem put_wrote {f : Field} {s : State} (hlegal : f.legal = true) (hok : s.bw.Ok s.wbufCap)
    (hroom : (s.bw.tell + f.len) / 8 ≤ s.wbufCap) :
    ∃ t, exec f.put.2 { s with arg0 := f.put.1 } = .next t ∧ Wrote s t (code f) := by
  cases f with
  | fixed v w =>
    have hw : w ≤ 32 := of_decide_eq_true hlegal
    have hfits : Fits s w := (fits_iff_tell s w).mpr hroom
    refine ⟨_, exec_wPut_of_fits (s := { s with arg0 := v }) hw hfits, ?_, emitBits_ok _ _ hok hfits, rfl⟩
    exact (emitBits_stream _ _ hok.pb_le hok.sr_lt).trans (by rw [bin_mod]; rfl)
  | ue v => exact putUe_wrote v hok (toNat_le_ueMax (of_decide_eq_true hlegal)) hroom
  | se k =>
    rw [Field.len, zigzag_toNat] at hroom
    exact putUe_wrote k hok (zz_toInt_le_ueMax (of_decide_eq_true hlegal)) hroom

theorem putFields_cons_of_next {f : Field} {s t : State} (fs : List Field)
    (hput : exec f.put.2 { s with arg0 := f.put.1 } = .next t) : putFields (f :: fs) s = putFields fs t := by
  rw [putFields, hput]

theorem flatMap_code_length (fs : List Field) : (fs.flatMap code).length = (fs.map Field.len).sum := by
  rw [List.length_flatMap]
  simp only [code_length]

/-- Legal fields with room for all of them are appended one after another. -/
theorem putFields_wrote {fs : List Field} {s : State} (hlegal : ∀ f ∈ fs, f.legal = true) (hok : s.bw.Ok s.wbufCap)
    (hroom : (s.bw.tell + (fs.map Field.len).sum) / 8 ≤ s.wbufCap) :
    ∃ t, putFields fs s = .next t ∧ Wrote s t (fs.flatMap code) := by
  induction fs generalizing s with
  | nil => exact ⟨s, rfl, (List.append_nil _).symm, hok, rfl⟩
  | cons f fs ih =>
    rw [List.map_cons, List.sum_cons] at hroom
    obtain ⟨t, hput, hfirst⟩ := put_wrote (hlegal f List.mem_cons_self) hok
      (le_trans (Nat.div_le_div_right (by omega)) hroom)
    obtain ⟨u, hputs, hrest⟩ := ih (fun g hg => hlegal g (List.mem_cons_of_mem f hg)) hfirst.ok
      (by rw [hfirst.tell, hfirst.wbufCap, code_length, Nat.add_assoc]; exact hroom)
    refine ⟨u, (putFields_cons_of_next fs hput).trans hputs, ?_, hrest.ok, hrest.cfg.trans hfirst.cfg⟩
    rw [hrest.stream, hfirst.stream, List.flatMap_cons, List.append_assoc]

/-- W_ALIGN_ZERO with room for the last byte pads the stream to whole bytes, ceil8(TELL) of them. -/
theorem align_wrote {s : State} (hok : s.bw.Ok s.wbufCap) (hroom : ceil8 s.bw.tell ≤ s.wbufCap) :
    ∃ t bits, exec .wAlignZero s = .next t ∧ Wrote s t bits ∧ t.bw.wcnt = ceil8 s.bw.tell ∧ t.bw.pb = 0 := by
  have hpb := hok.pb_le
  by_cases haligned : s.bw.pb = 0
  · refine ⟨_, [], exec_wAlignZero_of_aligned haligned, ⟨(List.append_nil _).symm, hok, rfl⟩, ?_, haligned⟩
    show s.bw.wcnt = _
    rw [ceil8, BitWriter.tell]
    omega
  · have hbytes : ceil8 s.bw.tell = s.bw.wcnt + 1 := by
      rw [ceil8, BitWriter.tell]
      omega
    have hfits : Fits s (8 - s.bw.pb) := (fits_padding_iff hpb).mpr (by omega)
    have hcommit := emitBits_zero_to_boundary (bw := s.bw) (n := 8 - s.bw.pb) (by omega) (by omega)
    refine ⟨_, _, exec_wAlignZero_of_fits haligned hfits,
      ⟨emitBits_stream 0 (8 - s.bw.pb) hpb hok.sr_lt, emitBits_ok 0 _ hok hfits, rfl⟩, ?_, ?_⟩
    · show (emitBits 0 (8 - s.bw.pb) s.bw).wcnt = _
      rw [hcommit, hbytes]
      rfl
    · show (emitBits 0 (8 - s.bw.pb) s.bw).pb = _
      rw [hcommit]
      rfl

theorem ue_read {s : State} {u : Nat} (hu : u ≤ ueMax) (hinside : s.br.cur.toNat + ueLen u ≤ s.br.bits.toNat)
    (hbits : s.readerBits s.br.cur.toNat (ueLen u) = ueBits u) : s.readUe = .value u (s.br.cur.toNat + ueLen u) := by
  obtain ⟨hlow, hhigh⟩ := ueL_spec u
  rw [Nat.pow_succ] at hhigh
  have hsuffix : u - (2 ^ ueL u - 1) < 2 ^ ueL u := by omega
  have hu' : 2 ^ ueL u - 1 + (u - (2 ^ ueL u - 1)) = u := Nat.add_sub_cancel' (by omega)
  have hcode := ueBits_eq_zeros_one_suffix hsuffix
  rw [hu'] at hcode
  have hread := readUe_of_code (ueL_le hu) hsuffix hinside (hbits.trans hcode)
  rwa [hu'] at hread

/-- A reader command on a field's code gives the field back and moves the cursor past it. -/
theorem get_code {f : Field} {s : State} (hlegal : f.legal = true)
    (hinside : s.br.cur.toNat + f.len ≤ s.br.bits.toNat) (hbits : s.readerBits s.br.cur.toNat f.len = code f) :
    exec f.get s = complete .ok f.value (s.moveCursor (s.br.cur.toNat + f.len)) := by
  cases f with
  | fixed v w =>
    have hfield : s.readField s.br.cur.toNat w = v.toNat % 2 ^ w :=
      bin_inj (readField_lt s _ w) (Nat.mod_lt _ (Nat.two_pow_pos w))
        ((bin_readField s _ w).trans (hbits.trans (bin_mod w v.toNat).symm))
    exact (exec_rGetBits_of_inside (of_decide_eq_true hlegal) hinside).trans (by rw [hfield]; rfl)
  | ue v =>
    have hread := ue_read (toNat_le_ueMax (of_decide_eq_true hlegal)) hinside hbits
    exact (exec_rGetUe_of_value hread).trans (by rw [zext32, BitVec.ofNat_toNat, BitVec.setWidth_eq]; rfl)
  | se k =>
    rw [Field.len, zigzag_toNat] at hinside hbits ⊢
    have hread := ue_read (zz_toInt_le_ueMax (of_decide_eq_true hlegal)) hinside hbits
    exact (exec_rGetSe_of_value hread).trans (by rw [izz_zz, twos32, BitVec.ofInt_toInt]; rfl)

theorem getFields_cons_of_complete {f : Field} {s t : State} {r : Word} (fs : List Field)
    (hget : exec f.get s = complete .ok r t) :
    getFields (f :: fs) s = (getFields fs { t with status := 0, result := r }).map fun l => r :: l := by
  rw [getFields, hget]
  rfl

/-- A buffer that holds the codes of legal fields at the cursor reads back as their values. -/
theorem getFields_codes {fs : List Field} {s : State} (hlegal : ∀ f ∈ fs, f.legal = true)
    (hinside : s.br.cur.toNat + (fs.map Field.len).sum ≤ s.br.bits.toNat)
    (hbits : s.readerBits s.br.cur.toNat (fs.map Field.len).sum = fs.flatMap code) :
    getFields fs s = some (fs.map Field.value) := by
  induction fs generalizing s with
  | nil => rfl
  | cons f fs ih =>
    rw [List.map_cons, List.sum_cons] at hinside hbits
    rw [readerBits_add, List.flatMap_cons] at hbits
    obtain ⟨hfirst, hrest⟩ := List.append_inj hbits (by rw [readerBits_length, code_length])
    have hcur : (zext32 (s.br.cur.toNat + f.len)).toNat = s.br.cur.toNat + f.len :=
      zext32_toNat_of_le (bits := s.br.bits) (by omega)
    have hget := get_code (hlegal f List.mem_cons_self) (by omega) hfirst
    rw [getFields_cons_of_complete fs hget, ih fun g hg => hlegal g (List.mem_cons_of_mem f hg)]
    · rfl
    · show (zext32 _).toNat + _ ≤ s.br.bits.toNat
      rw [hcur, Nat.add_assoc]
      exact hinside
    · show s.readerBits (zext32 _).toNat _ = _
      rw [hcur]
      exact hrest

/-! The whole trip (41_bit_reader.md R178, 42_exp_golomb.md R206). -/

theorem stream_of_empty {bw : BitWriter} (hwcnt : bw.wcnt = 0) (hpb : bw.pb = 0) : bw.stream = [] := by
  simp [BitWriter.stream, BitWriter.committed, hwcnt, hpb]

/-- Fields put into an empty writer with room, aligned, copied out and attached are what the reader has at cursor 0. -/
theorem fields_attached {s : State} {fs : List Field} {d : Word} (hinv : BlockInv s) (hwcnt : s.bw.wcnt = 0)
    (hpb : s.bw.pb = 0) (hlegal : ∀ f ∈ fs, f.legal = true)
    (hcap : ceil8 (fs.map Field.len).sum ≤ s.wbufCap)
    (hhmem : d.toNat + ceil8 (fs.map Field.len).sum ≤ s.cfg.hmemBytes) :
    ∃ s1 s2 s3 s4, putFields fs s = .next s1 ∧ exec .wAlignZero s1 = .next s2 ∧
      exec .wCopyOut { s2 with arg0 := d } = .next s3 ∧
      exec .rInit { s3 with arg0 := d, arg1 := BitVec.ofNat 32 (8 * s3.bw.wcnt) } = .next s4 ∧
      s4.br.cur = 0 ∧ (fs.map Field.len).sum ≤ s4.br.bits.toNat ∧
      s4.readerBits 0 (fs.map Field.len).sum = fs.flatMap code := by
  have hempty : s.bw.tell = 0 := by rw [BitWriter.tell, hwcnt, hpb]
  have hceil : (fs.map Field.len).sum ≤ 8 * ceil8 (fs.map Field.len).sum := by rw [ceil8]; omega
  obtain ⟨s1, hput, hwrote⟩ := putFields_wrote hlegal hinv.writer
    (by rw [hempty, Nat.zero_add]; exact le_trans (Nat.div_le_div_right (Nat.le_add_right _ 7)) hcap)
  have htell : s1.bw.tell = (fs.map Field.len).sum := by
    rw [hwrote.tell, hempty, Nat.zero_add, flatMap_code_length]
  obtain ⟨s2, pad, halign, hpadded, hbytes, -⟩ := align_wrote hwrote.ok (by rw [htell, hwrote.wbufCap]; exact hcap)
  rw [htell] at hbytes
  have hword : (BitVec.ofNat 32 (8 * s2.bw.wcnt)).toNat = 8 * s2.bw.wcnt := by
    have hbound := wbufCap_le_of_wf hinv.params
    exact zext32_toNat_of_lt (by omega)
  obtain ⟨s3, s4, hcopy, -, hkept, hinit, -, hbr, hread⟩ :=
    copied_and_attached (s := s2) (d := d) (n := BitVec.ofNat 32 (8 * s2.bw.wcnt)) hword.le
      (by rw [hbytes, hpadded.cfg, hwrote.cfg]; exact hhmem)
  have hlen : s3.bw.wcnt = s2.bw.wcnt := by rw [hkept]
  refine ⟨s1, s2, s3, s4, hput, halign, hcopy, by rw [hlen]; exact hinit, by rw [hbr], ?_, ?_⟩
  · rw [hbr, hword, hbytes]
    exact hceil
  · rw [hword, hbytes] at hread
    have hstream : s2.bw.stream = fs.flatMap code ++ pad := by
      rw [hpadded.stream, hwrote.stream, stream_of_empty hwcnt hpb, List.nil_append]
    rw [← readerBits_take hceil, hread, List.take_take, Nat.min_eq_left hceil, hstream,
      List.take_left' (flatMap_code_length fs)]

/-- Settles O53: `fields_attached`, then `getFields_codes` at cursor 0. -/
theorem writtenFieldsReadBack : Obligations.WrittenFieldsReadBack := by
  intro s fields d hinv hwcnt hpb hlegal hcap hhmem
  obtain ⟨s1, s2, s3, s4, hput, halign, hcopy, hinit, hcur, hinside, hbits⟩ :=
    fields_attached hinv hwcnt hpb hlegal hcap hhmem
  refine ⟨s1, s2, s3, s4, hput, halign, hcopy, hinit, getFields_codes hlegal ?_ ?_⟩ <;> rw [hcur]
  · exact (Nat.zero_add _).trans_le hinside
  · exact hbits

theorem putFields_singleton {f : Field} {s t : State} (hput : putFields [f] s = .next t) :
    exec f.put.2 { s with arg0 := f.put.1 } = .next t := by
  rw [putFields] at hput
  cases hexec : exec f.put.2 { s with arg0 := f.put.1 } <;> rw [hexec] at hput
  · exact hput
  · cases hput
  · cases hput

/-- One field's trip, with the cursor at its end. -/
theorem field_round_trip {s : State} {f : Field} {d : Word} (hinv : BlockInv s) (hwcnt : s.bw.wcnt = 0)
    (hpb : s.bw.pb = 0) (hlegal : f.legal = true) (hcap : ceil8 f.len ≤ s.wbufCap)
    (hhmem : d.toNat + ceil8 f.len ≤ s.cfg.hmemBytes) :
    ∃ s1 s2 s3 s4 s5, exec f.put.2 { s with arg0 := f.put.1 } = .next s1 ∧ exec .wAlignZero s1 = .next s2 ∧
      exec .wCopyOut { s2 with arg0 := d } = .next s3 ∧
      exec .rInit { s3 with arg0 := d, arg1 := BitVec.ofNat 32 (8 * s3.bw.wcnt) } = .next s4 ∧
      exec f.get s4 = .next s5 ∧ s5.result = f.value ∧ s5.status = 0 ∧ s5.br.cur.toNat = f.len := by
  have hsum : ([f].map Field.len).sum = f.len := List.sum_singleton
  have hcode : [f].flatMap code = code f := List.flatMap_singleton code f
  obtain ⟨s1, s2, s3, s4, hput, halign, hcopy, hinit, hcur, hinside, hbits⟩ :=
    fields_attached (fs := [f]) (d := d) hinv hwcnt hpb (List.forall_mem_singleton.mpr hlegal) (hsum ▸ hcap)
      (hsum ▸ hhmem)
  rw [hsum] at hinside hbits
  rw [hcode] at hbits
  have hzero : s4.br.cur.toNat = 0 := by rw [hcur]; rfl
  have hget := get_code hlegal (by rw [hzero, Nat.zero_add]; exact hinside) (by rw [hzero]; exact hbits)
  rw [hzero, Nat.zero_add] at hget
  exact ⟨s1, s2, s3, s4, _, putFields_singleton hput, halign, hcopy, hinit, hget, rfl, rfl, zext32_toNat_of_le hinside⟩

/-- Settles O51: the trip of a ue field. -/
theorem expGolombIdentityUnsigned : Obligations.ExpGolombIdentityUnsigned :=
  fun _ v _ hinv hwcnt hpb hv hcap hhmem =>
    field_round_trip (f := .ue v) hinv hwcnt hpb (decide_eq_true hv) hcap hhmem

/-- Settles O52: the trip of an se field. -/
theorem expGolombIdentitySigned : Obligations.ExpGolombIdentitySigned :=
  fun _ k _ hinv hwcnt hpb hk hcap hhmem =>
    field_round_trip (f := .se k) hinv hwcnt hpb (decide_eq_true hk) hcap hhmem

end Sys2Proof.RoundTrips
